-- ==== Sys2Proof/Word.lean ====
section
/-! DEFINITION. The fixed-width words of the engine's interfaces. The word whose width is the width profile `W`
(`BitVec p.width`) belongs to `Sys2Proof/Config.lean`. -/

namespace Sys2Proof

/-- A byte: the unit of the data memory and of both stream ports (R8, R40). -/
abbrev Byte := BitVec 8

/-- A 32-bit word of the host register block: a command word, an operand register, a read value (R28, R60). -/
abbrev Word32 := BitVec 32

/-- A byte address of the data memory, `AW = 32` bits wide (R7, R40). -/
abbrev Addr := BitVec 32

/-- The byte offset of a host access, 8 bits wide (R69). -/
abbrev HostOffset := BitVec 8

/-- The lane cursor register `CUR`, 6 bits wide (R20). -/
abbrev Cursor := BitVec 6

end Sys2Proof
end

