-- ==== Sys2Proof/Syntax.lean ====
section
/-! DEFINITION. The instruction set: the ten commands a host can write to `CMD` (R2, R63). -/

namespace Sys2Proof

/-- A command, one constructor per row of the opcode map (R63). `DATA` is the only operand a command word carries (R66);
every other operand is a whole register read when the command executes. -/
inductive Instr
  /-- `NOP`: nothing (R140). -/
  | nop
  /-- `INIT`: open a session under `KEY` (R95). -/
  | init
  /-- `ENCB imm8`: encrypt the plain byte `DATA` in the open session (R96). -/
  | encb (data : Byte)
  /-- `DECB imm8`: decrypt the cipher byte `DATA` in the open session (R97). -/
  | decb (data : Byte)
  /-- `FINAL`: compute the tag and close the session (R98). -/
  | final
  /-- `ENCS`: encrypt a whole stream (R114). -/
  | encs
  /-- `DECS`: decrypt a whole stream (R115). -/
  | decs
  /-- `ENCM`: encrypt a whole buffer (R116). -/
  | encm
  /-- `DECM`: decrypt a whole buffer (R117). -/
  | decm
  /-- `RST`: soft reset (R141). -/
  | rst
deriving DecidableEq, Repr

end Sys2Proof
end

