-- ==== Sys2Proof/Decode.lean ====
section
/-! DEFINITION. From a 32-bit command word to a command or a named reason why the word is illegal, and back (R60–R65). -/

namespace Sys2Proof

/-- Field `OP`, bits 3:0: selects the command (R60). -/
def opField (c : Word32) : BitVec 4 := c.extractLsb' 0 4

/-- Field `DATA`, bits 15:8: the data byte of `ENCB` and `DECB` (R60, R66). -/
def dataField (c : Word32) : Byte := c.extractLsb' 8 8

/-- The bits of `Z0` and `Z1`, reserved in every command (R60, R64). -/
def reservedMask : Word32 := 0xFFFF00F0#32

/-- The bits of `Z0`, `DATA` and `Z1`, all zero in a format-N command (R61). -/
def formatNMask : Word32 := 0xFFFFFFF0#32

/-- Why a word is illegal (R64). DESIGN CHOICE: where a word has several of these, the first in this order is named; the
machine raises `E_ILL` for each alike (log entry 13). -/
inductive DecodeError
  /-- `OP` is one of `0xA … 0xF`. -/
  | reservedOpcode
  /-- a bit of `Z0` or `Z1` is 1. -/
  | reservedBit
  /-- `DATA` is not 0 in a format-N command. -/
  | dataInFormatN
deriving DecidableEq, Repr

/-- A format-N word: every bit above `OP` is 0 (R61). -/
def decodeN (c : Word32) (i : Instr) : Except DecodeError Instr :=
  if c &&& formatNMask = 0#32 then .ok i
  else if c &&& reservedMask = 0#32 then .error .dataInFormatN
  else .error .reservedBit

/-- A format-B word: every bit above `OP` outside `DATA` is 0 (R62). -/
def decodeB (c : Word32) (i : Byte → Instr) : Except DecodeError Instr :=
  if c &&& reservedMask = 0#32 then .ok (i (dataField c)) else .error .reservedBit

/-- The decoder, total on all `2^32` words (R63). -/
def decode (c : Word32) : Except DecodeError Instr :=
  match (opField c).toNat with
  | 0 => decodeN c .nop
  | 1 => decodeN c .init
  | 2 => decodeB c .encb
  | 3 => decodeB c .decb
  | 4 => decodeN c .final
  | 5 => decodeN c .encs
  | 6 => decodeN c .decs
  | 7 => decodeN c .encm
  | 8 => decodeN c .decm
  | 9 => decodeN c .rst
  | _ => .error .reservedOpcode

/-- The opcode number of a command (R63). -/
def Instr.opcode : Instr → BitVec 4
  | .nop => 0x0#4
  | .init => 0x1#4
  | .encb _ => 0x2#4
  | .decb _ => 0x3#4
  | .final => 0x4#4
  | .encs => 0x5#4
  | .decs => 0x6#4
  | .encm => 0x7#4
  | .decm => 0x8#4
  | .rst => 0x9#4

/-- The contents of the `DATA` field of a command's word: the byte operand in format B, 0 in format N (R61, R62). -/
def Instr.dataByte : Instr → Byte
  | .encb d => d
  | .decb d => d
  | .nop => 0x00#8
  | .init => 0x00#8
  | .final => 0x00#8
  | .encs => 0x00#8
  | .decs => 0x00#8
  | .encm => 0x00#8
  | .decm => 0x00#8
  | .rst => 0x00#8

/-- The word of a command: `Z1 = 0`, then `DATA`, `Z0 = 0`, `OP` (R60). -/
def encode (i : Instr) : Word32 := 0x0000#16 ++ i.dataByte ++ 0x0#4 ++ i.opcode

/-- The command that the decoder reads from an opcode-table row's word: bit `k` of `w` is bit `k` of the command word,
and the bits from `nbits` up are 0. A command is exactly 32 bits (R60), so a longer word is none
(DEDUCED, log entry 12). -/
def decodeTableWord (nbits w : Nat) : Option Instr :=
  if w % 2 ^ nbits < 2 ^ 32 then
    match decode (BitVec.ofNat 32 (w % 2 ^ nbits)) with
    | .ok i => some i
    | .error _ => none
  else none

end Sys2Proof
end

