-- ==== Sys2Proof/Config.lean ====
section
/-! DEFINITION. What is fixed when an engine is built: the width profile `W` and every quantity of R6 that is a function
of it. A profile is an argument of everything that depends on it, so one text models both profiles. -/

namespace Sys2Proof

/-- The width profile of an engine, "compile-time choice" (R6): `W = 32` or `W = 64`. -/
inductive Profile
  | w32
  | w64
deriving DecidableEq, Repr

/-- `W`: the width in bits of key, seed, tag accumulator, `IPAD` and `OPAD` (R6). -/
abbrev Profile.width : Profile → Nat
  | .w32 => 32
  | .w64 => 64

/-- `TAGW`: the width of a tag in bytes, `W/8` (R6). -/
abbrev Profile.tagw (p : Profile) : Nat := p.width / 8

/-- `LANE_MOD`: the modulus of the lane cursor, `W − 8` (R6). -/
abbrev Profile.laneMod (p : Profile) : Nat := p.width - 8

/-- `IPAD_C`: the inner pad constant (R6; which literal is the inner one is the spec's decision D2). -/
def Profile.ipadC : (p : Profile) → BitVec p.width
  | .w32 => 0xB45951C6#32
  | .w64 => 0x4613A6F6B45951C6#64

/-- `OPAD_C`: the outer pad constant (R6; which literal is the outer one is the spec's decision D2). -/
def Profile.opadC : (p : Profile) → BitVec p.width
  | .w32 => 0x49B2863D#32
  | .w64 => 0x29E8FF4949B2863D#64

/-- `SH1`: the left shift of the first xorshift step (R6). -/
def Profile.sh1 : Profile → Nat
  | .w32 => 13
  | .w64 => 13

/-- `SH2`: the right shift of the second xorshift step (R6). -/
def Profile.sh2 : Profile → Nat
  | .w32 => 17
  | .w64 => 7

/-- `SH3`: the left shift of the third xorshift step (R6). -/
def Profile.sh3 : Profile → Nat
  | .w32 => 5
  | .w64 => 17

end Sys2Proof
end

