-- ==== Sys2Proof/Machine/State.lean ====
section
/-! DEFINITION. The state of the machine as plain data: the engine's registers (R20–R26), the data memory and the two
stream ports it reaches (R40), the platform's address predicate (R42), and the accesses the outside world is about to
make and has made. Also the reasons to stop, and the state after reset (R31). -/

namespace Sys2Proof.Machine

/-- `PHASE`: whether a session is open (R22). -/
inductive Phase
  | idle
  | opened
deriving DecidableEq, Repr

/-- The values `STATUS.ERR` can take (R150); codes 5 to 7 are never produced. -/
inductive Err
  /-- 0: the command completed. -/
  | ok
  /-- 1 `E_ILL`: the word is illegal (R153). -/
  | ill
  /-- 2 `E_SEQ`: no session is open (R154). -/
  | seq
  /-- 3 `E_SIZE`: `LEN < IVLEN + TAGW` (R155). -/
  | size
  /-- 4 `E_BUS`: a region fails `RegionOK` (R156). -/
  | bus
deriving DecidableEq, Repr

/-- The five session registers (R20). -/
structure Session (p : Profile) where
  seed : BitVec p.width
  tag : BitVec p.width
  ipad : BitVec p.width
  opad : BitVec p.width
  cur : Cursor
deriving DecidableEq, Repr

/-- Every register of the engine. `STATUS` is held as its fields `phase valid short eflag err` (R25); `ID` is a constant
of the profile and is not stored (R26). -/
structure Engine (p : Profile) where
  session : Session p
  phase : Phase
  key : BitVec p.width
  len : Word32
  ivlen : Word32
  src : Addr
  dst : Addr
  ivp : Addr
  dout : Byte
  tagout : BitVec p.width
  valid : Bool
  short : Bool
  eflag : Bool
  err : Err
deriving DecidableEq, Repr

/-- The data memory: (address, byte) pairs in the canonical form `Memory.wf` (R40, R41). -/
abbrev Memory := List Host.Cell

/-- The byte addresses from `first` to `last`, both included. -/
structure AddrRange where
  first : Addr
  last : Addr
deriving DecidableEq, Repr

/-- The direction of a host transaction: `R` or `W` (R69). -/
inductive Rw
  | read
  | write
deriving DecidableEq, Repr

/-- A host transaction `(rw, off, v)`; for a read, `v` is the value returned (R69). -/
structure Transaction where
  rw : Rw
  off : HostOffset
  v : Word32
deriving DecidableEq, Repr

/-- What the outside world does to the machine between commands. DESIGN CHOICE: these are all the accesses the model has, and
each lands between two commands (log entries 5, 10 and 15). -/
inductive Input
  /-- `HostWrite(off, v)` (R142). -/
  | hostWrite (off : HostOffset) (v : Word32)
  /-- `HostRead(off)` (R143). -/
  | hostRead (off : HostOffset)
  /-- hardware reset (R170). -/
  | hardReset
  /-- the environment replaces the stream source (R46). -/
  | setSource (bytes : List Byte)
  /-- the host places a byte in data memory (R172 point 4). -/
  | placeByte (a : Addr) (v : Byte)
deriving DecidableEq, Repr

/-- The whole machine. `profile` and `mapped` are the parameters of the engine and its platform (R6, R7) and no step
changes them; `inputs` and `trace` are the model's own record of the outside world's accesses. DESIGN CHOICE: the
parameters are plain data beside the state, so that one text covers every profile and platform (log entries 2 and 9). -/
structure State where
  /-- `W` (R6). -/
  profile : Profile
  /-- the engine's registers (R20–R26). -/
  engine : Engine profile
  /-- the data memory (R40). -/
  mem : Memory
  /-- the addresses for which `Mapped` holds (R42). -/
  mapped : List AddrRange
  /-- `Src`: the bytes left in the stream source, the next one first (R46). -/
  source : List Byte
  /-- `Sink`: the bytes written to the stream sink, the oldest first (R47). -/
  sink : List Byte
  /-- the accesses still to come, the next one first. -/
  inputs : List Input
  /-- the host transactions completed, the oldest first (R69). -/
  trace : List Transaction
deriving DecidableEq, Repr

/-- Why the machine stops. No command stops it: the engine's own faults are next states (R151). -/
inductive Fault
  /-- Raised by `hostRead` and `hostWrite` on an offset that is not a multiple of 4: "narrower, wider or unaligned host
  accesses do not exist at this interface" (R28). DESIGN CHOICE (log entry 6), SAFE: the model stops where the spec has no
  access at all. -/
  | hostAccessUnaligned
deriving DecidableEq, Repr

/-- Why an instruction is refused. -/
inductive Refusal
  /-- Raised by `exec` for an instruction that has no meaning yet; no arm of `exec` answers it. SAFE. -/
  | notModelled (mnemonic : String)
deriving DecidableEq, Repr

/-- The session registers when no session has been opened, and after one is closed: all zero (R31, R94). -/
def Session.zero (p : Profile) : Session p :=
  { seed := 0#_, tag := 0#_, ipad := 0#_, opad := 0#_, cur := 0#6 }

/-- Every engine register at its reset value (R31). -/
def Engine.reset (p : Profile) : Engine p :=
  { session := Session.zero p, phase := .idle, key := 0#_, len := 0#32, ivlen := 0#32, src := 0#32, dst := 0#32,
    ivp := 0#32, dout := 0x00#8, tagout := 0#_, valid := false, short := false, eflag := false, err := .ok }

/-- The whole address space (R40). -/
def AddrRange.all : AddrRange := { first := 0x00000000#32, last := 0xFFFFFFFF#32 }

/-- An engine of profile `p` right after reset, on a platform with address predicate `mapped`, memory `mem` and stream
source `source`: what a model "takes … as arguments" (R7). -/
def State.resetWith (p : Profile) (mapped : List AddrRange) (mem : Memory) (source : List Byte) : State :=
  { profile := p, engine := Engine.reset p, mem := mem, mapped := mapped, source := source, sink := [], inputs := [],
    trace := [] }

/-- The machine right after reset (R31, R170). DESIGN CHOICE for the parameters the spec leaves to the builder and the
platform, all UNSAFE: `W = 32`, every address mapped, memory all `0x00`, an empty source and an empty sink (log entries 1
to 4). -/
def State.reset : State := State.resetWith .w32 [AddrRange.all] [] []

end Sys2Proof.Machine
end

