-- ==== Sys2Proof/Machine/Ops.lean ====
section
/-! DEFINITION. The shared operations: reading and writing a byte of memory, the two stream ports, the check of a region,
the bytes of a tag, taking a fault, and reset. -/

namespace Sys2Proof.Machine

/-! ### Data memory (R41) -/

/-- What an address that `Memory` does not list reads as. DESIGN CHOICE (log entry 3), UNSAFE: the spec leaves the
initial memory to the platform. -/
def Memory.unlisted : Byte := 0x00#8

/-- The canonical form: addresses below `2^32` and strictly rising, no entry equal to what an unlisted address reads as. -/
abbrev Memory.wf (m : Memory) : Prop :=
  m.Pairwise (fun c d => c.1 < d.1) ∧ ∀ c ∈ m, c.1 < 2 ^ 32 ∧ c.2 ≠ Memory.unlisted

/-- `Mem[k]` for an address given as a number. -/
def Memory.lookup : Memory → Nat → Byte
  | [], _ => Memory.unlisted
  | c :: m, k => if c.1 = k then c.2 else Memory.lookup m k

/-- `MemRead(a, 1)` (R41). -/
def Memory.read (m : Memory) (a : Addr) : Byte := Memory.lookup m a.toNat

/-- The memory without an entry for `k`. -/
def Memory.erase (m : Memory) (k : Nat) : Memory := m.filter fun c => c.1 != k

/-- The memory with the entry `(k, v)` before the first entry of a higher or equal address. -/
def Memory.insert : Memory → Nat → Byte → Memory
  | [], k, v => [(k, v)]
  | c :: m, k, v => if c.1 < k then c :: Memory.insert m k v else (k, v) :: c :: m

/-- `MemWrite(a, 1, v)` (R41), keeping the canonical form. -/
def Memory.write (m : Memory) (a : Addr) (v : Byte) : Memory :=
  if v = Memory.unlisted then Memory.erase m a.toNat else Memory.insert (Memory.erase m a.toNat) a.toNat v

/-- The address of byte `i` of the region at `base`: "a plain 32-bit sum" (R121). -/
def byteAddr (base : Addr) (i : Nat) : Addr := base + BitVec.ofNat 32 i

/-- Writing a sequence of bytes in ascending address order, from byte `i` of the region at `base` (R44). -/
def Memory.writeBytes (m : Memory) (base : Addr) (i : Nat) : List Byte → Memory
  | [] => m
  | b :: bs => Memory.writeBytes (Memory.write m (byteAddr base i) b) base (i + 1) bs

/-! ### Stream ports (R46, R47) -/

/-- `SrcRead()`: the next byte, or none for `EOS`, and what is left. An exhausted source stays exhausted (R46).
DESIGN CHOICE: the source is a finite sequence and always answers, the first of the two readings of R176 (log entry 8). -/
def srcRead : List Byte → Option Byte × List Byte
  | [] => (none, [])
  | b :: rest => (some b, rest)

/-- `SinkWrite(v)`: append to the end; it always succeeds (R47). -/
def sinkWrite (sink : List Byte) (v : Byte) : List Byte := sink ++ [v]

/-! ### Regions (R42) -/

/-- `Mapped(a)` (R7, R42). -/
def mappedAt (mapped : List AddrRange) (a : Nat) : Bool :=
  mapped.any fun r => r.first.toNat ≤ a && a ≤ r.last.toNat

/-- `RegionOK(base, n)` (R42). -/
abbrev RegionOK (mapped : List AddrRange) (base : Addr) (n : Nat) : Prop :=
  n = 0 ∨ (base.toNat + n ≤ 2 ^ 32 ∧ ∀ i, i < n → mappedAt mapped (base.toNat + i) = true)

/-! ### The bytes of a tag (R43) -/

/-- Byte `k` of a tag, `t[8k+7 : 8k]` (R43). -/
def tagByte {p : Profile} (t : BitVec p.width) (k : Nat) : Byte := t.extractLsb' (8 * k) 8

/-- `TagBytes(t)`: the `TAGW` bytes of a tag, least significant first (R43). -/
def tagBytes {p : Profile} (t : BitVec p.width) : List Byte := (List.range p.tagw).map (tagByte t)

/-- `rx | (zext_W(r) << 8k)`: a received tag with byte `k` put in (R115, R117). -/
def putTagByte {p : Profile} (rx : BitVec p.width) (k : Nat) (r : Byte) : BitVec p.width :=
  rx ||| (r.setWidth p.width <<< (8 * k))

/-- Puts bytes into a tag under construction, from byte `k` up. -/
def tagFromBytesAt {p : Profile} (rx : BitVec p.width) (k : Nat) : List Byte → BitVec p.width
  | [] => rx
  | b :: bs => tagFromBytesAt (putTagByte rx k b) (k + 1) bs

/-- `TagFromBytes(b_0 … b_{TAGW−1})` (R43). -/
def tagFromBytes (p : Profile) (bs : List Byte) : BitVec p.width := tagFromBytesAt 0#_ 0 bs

/-! ### Faults and reset -/

/-- `raise E` (R151): the four `STATUS` fields are rewritten and nothing else changes. There is no vector, no saved state
and no return from it (R161). -/
@[reducible] def raise (f : Err) (s : State) : State :=
  { s with engine := { s.engine with err := f, valid := false, short := false, eflag := true } }

/-- Reset: every engine register takes its reset value; memory, source and sink are not touched (R31, R170). -/
@[reducible] def resetEngine (s : State) : State := { s with engine := Engine.reset s.profile }

end Sys2Proof.Machine
end

