-- ==== Sys2Proof/Machine/Operands.lean ====
section
/-! DEFINITION. Every operand form (R66): the byte of a command word, whole operand registers, the halves of a `W`-bit
register at the 32-bit register block (R28), and the lengths and addresses a controller command computes (R111, R121). -/

namespace Sys2Proof.Machine

/-- `zext_W(b)`: a byte at `W` bits, never sign-extended (R66, R84). -/
def zextByte (p : Profile) (b : Byte) : BitVec p.width := b.setWidth p.width

/-- A write of `KEYL`: replaces `KEY[31:0]` and leaves the other bits (R28, R29). -/
def writeKeyLow : {p : Profile} → BitVec p.width → Word32 → BitVec p.width
  | .w32, _, v => v
  | .w64, key, v => key.extractLsb' 32 32 ++ v

/-- A write of `KEYH`: replaces `KEY[63:32]` when `W = 64`, ignored when `W = 32` (R28, R29). -/
def writeKeyHigh : {p : Profile} → BitVec p.width → Word32 → BitVec p.width
  | .w32, key, _ => key
  | .w64, key, v => v ++ key.extractLsb' 0 32

/-- A read of `TAGOUTL`: `TAGOUT[31:0]` (R28). -/
def tagoutLow {p : Profile} (t : BitVec p.width) : Word32 := t.extractLsb' 0 32

/-- A read of `TAGOUTH`: `TAGOUT[63:32]` when `W = 64`, 0 when `W = 32` (R28). -/
def tagoutHigh : {p : Profile} → BitVec p.width → Word32
  | .w32, _ => 0#32
  | .w64, t => t.extractLsb' 32 32

/-- `ID`: the value of `W` (R26). -/
def idWord (p : Profile) : Word32 := BitVec.ofNat 32 p.width

/-- The size guard `LEN < IVLEN + TAGW`, on unbounded integers (R111). -/
abbrev frameTooSmall {p : Profile} (e : Engine p) : Prop := e.len.toNat < e.ivlen.toNat + p.tagw

/-- The payload length `P = LEN − IVLEN − TAGW`, meaningful once the size guard has passed (R111). -/
def payloadLen {p : Profile} (e : Engine p) : Nat := e.len.toNat - e.ivlen.toNat - p.tagw

end Sys2Proof.Machine
end

