-- ==== Sys2Proof/Machine/Flags.lean ====
section
/-! DEFINITION. `STATUS`: its word, and the writes a command that completes makes to its fields (R25, R152). -/

namespace Sys2Proof.Machine

/-- `STATUS[0]`: `IDLE = 0`, `OPEN = 1` (R22). -/
def Phase.bit : Phase → BitVec 1
  | .idle => 0#1
  | .opened => 1#1

/-- `STATUS.ERR`: the fault code (R150). -/
def Err.code : Err → BitVec 3
  | .ok => 0#3
  | .ill => 1#3
  | .seq => 2#3
  | .size => 3#3
  | .bus => 4#3

/-- The value of `STATUS`: `ERR` in bits 6:4, `EFLAG`, `SHORT`, `VALID`, `PHASE` in bits 3 to 0, the rest 0 (R25). -/
def statusWord {p : Profile} (e : Engine p) : Word32 :=
  0#25 ++ e.err.code ++ BitVec.ofBool e.eflag ++ BitVec.ofBool e.short ++ BitVec.ofBool e.valid ++ e.phase.bit

/-- `complete(OK, valid, short)`: `ERR`, `VALID` and `SHORT` are written, `EFLAG` and `PHASE` are not (R152). -/
def complete {p : Profile} (valid short : Bool) (e : Engine p) : Engine p :=
  { e with err := .ok, valid := valid, short := short }

end Sys2Proof.Machine
end

