-- ==== Sys2Proof/Machine/Primitives.lean ====
section
/-! DEFINITION. The two functions every command is built from: the keystream primitive `advance` (R80) and the tag
accumulator step `foldByte` (R84). -/

namespace Sys2Proof.Machine

/-- `advance(x)`: three xorshift steps, left `SH1`, right `SH2`, left `SH3`, each on the result of the one before (R80).
Total: `advance 0` is 0 and no operand is tested (R82). -/
def advance {p : Profile} (x : BitVec p.width) : BitVec p.width :=
  let x1 := x ^^^ (x <<< p.sh1)
  let x2 := x1 ^^^ (x1 >>> p.sh2)
  x2 ^^^ (x2 <<< p.sh3)

/-- `zext_W(b) << c`: the byte at bits `c+7 : c` (R84). -/
def lane (p : Profile) (c : Cursor) (b : Byte) : BitVec p.width := zextByte p b <<< c.toNat

/-- The cursor after one more byte, `(c + 8) mod LANE_MOD` (R84). -/
def nextCursor (p : Profile) (c : Cursor) : Cursor := BitVec.ofNat 6 ((c.toNat + 8) % p.laneMod)

/-- `foldByte(t, c, b)`: the byte is placed at the cursor's value before the update, then the accumulator is diffused
(R84). -/
def foldByte {p : Profile} (t : BitVec p.width) (c : Cursor) (b : Byte) : BitVec p.width × Cursor :=
  (advance (t ^^^ lane p c b), nextCursor p c)

end Sys2Proof.Machine
end

