-- ==== Sys2Proof/Machine/Session.lean ====
section
/-! DEFINITION. The cipher session: its procedures `init`, `encryptByte`, `decryptByte`, `finalize` and `close`
(R90–R94), and the four commands that expose them (R95–R98). -/

namespace Sys2Proof.Machine

/-! ### The session procedures -/

/-- The seed of a session: the key, clamped to 1 if it is 0 or 1 (R90). -/
def clampKey {p : Profile} (k : BitVec p.width) : BitVec p.width := if k.toNat ≤ 1 then 1#_ else k

/-- `init(k)` (R90). The pads use the key unclamped. -/
def initSession {p : Profile} (k : BitVec p.width) : Session p :=
  { ipad := k ^^^ p.ipadC, opad := k ^^^ p.opadC, tag := advance (k ^^^ p.ipadC), seed := clampKey k, cur := 0#6 }

/-- The mask: the low byte of the advanced seed (R91, R92). -/
def maskByte {p : Profile} (ss : Session p) : Byte := (advance ss.seed).extractLsb' 0 8

/-- What a byte step leaves: the seed advanced, the plain byte folded into the tag, and the updated tag mixed into the
seed (R91, R92). -/
def absorb {p : Profile} (ss : Session p) (plain : Byte) : Session p :=
  { ss with
    seed := advance ss.seed ^^^ (foldByte ss.tag ss.cur plain).1
    tag := (foldByte ss.tag ss.cur plain).1
    cur := (foldByte ss.tag ss.cur plain).2 }

/-- `encryptByte(p)`: the session after it and the cipher byte; the plain byte is folded (R91). -/
def encryptByte {p : Profile} (ss : Session p) (plain : Byte) : Session p × Byte :=
  (absorb ss plain, plain ^^^ maskByte ss)

/-- `decryptByte(c)`: the session after it and the plain byte; the recovered plain byte is folded, not `c` (R92). -/
def decryptByte {p : Profile} (ss : Session p) (c : Byte) : Session p × Byte :=
  (absorb ss (c ^^^ maskByte ss), c ^^^ maskByte ss)

/-- `finalize()`: the tag it returns, which it also leaves in `TAG` (R93). -/
def finalizeTag {p : Profile} (ss : Session p) : BitVec p.width := advance (ss.tag ^^^ ss.opad)

/-- `close(t)`: latch the tag into `TAGOUT`, zero the session registers, `PHASE <- IDLE` (R94). -/
def close {p : Profile} (t : BitVec p.width) (e : Engine p) : Engine p :=
  { e with tagout := t, session := Session.zero p, phase := .idle }

/-! ### The session commands -/

/-- `INIT` (R95): legal in either phase. -/
def execInit (s : State) : Host.Outcome State Fault Refusal :=
  .next { s with
    engine := complete false false { s.engine with session := initSession s.engine.key, phase := .opened } }

/-- `ENCB imm8` (R96): `E_SEQ` when no session is open. -/
def execEncb (data : Byte) (s : State) : Host.Outcome State Fault Refusal :=
  match s.engine.phase with
  | .idle => .next (raise .seq s)
  | .opened => .next { s with
      engine := complete false false
        { s.engine with
          session := (encryptByte s.engine.session data).1
          dout := (encryptByte s.engine.session data).2 } }

/-- `DECB imm8` (R97): `E_SEQ` when no session is open. -/
def execDecb (data : Byte) (s : State) : Host.Outcome State Fault Refusal :=
  match s.engine.phase with
  | .idle => .next (raise .seq s)
  | .opened => .next { s with
      engine := complete false false
        { s.engine with
          session := (decryptByte s.engine.session data).1
          dout := (decryptByte s.engine.session data).2 } }

/-- `FINAL` (R98): `E_SEQ` when no session is open; no tag is compared. -/
def execFinal (s : State) : Host.Outcome State Fault Refusal :=
  match s.engine.phase with
  | .idle => .next (raise .seq s)
  | .opened => .next { s with
      engine := complete false false (close (finalizeTag s.engine.session) s.engine) }

end Sys2Proof.Machine
end

