-- ==== Sys2Proof/Machine/Datapath.lean ====
section
/-! DEFINITION. The data-path controller: `ENCS`, `DECS`, `ENCM`, `DECM` (R110–R124). A loop `for i in 0 .. n−1` of the
spec is a recursion on the number of rounds left; each byte is read, transformed and written before the next (R113). -/

namespace Sys2Proof.Machine

/-! ### Phases over the stream ports -/

/-- What a stream command works on: the session, the two ports, and whether the source has signalled exhaustion. -/
structure Stream (p : Profile) where
  session : Session p
  source : List Byte
  sink : List Byte
  short : Bool
deriving DecidableEq, Repr

/-- IV phase of `ENCS`: `n` bytes of memory from byte `i` of the region at `base`, encrypted into the sink (R114). -/
def encryptMemToSink {p : Profile} (mem : Memory) (base : Addr) : (n i : Nat) → Stream p → Stream p
  | 0, _, st => st
  | n + 1, i, st =>
    let r := encryptByte st.session (Memory.read mem (byteAddr base i))
    encryptMemToSink mem base n (i + 1) { st with session := r.1, sink := sinkWrite st.sink r.2 }

/-- Payload phase of `ENCS`: up to `n` source bytes encrypted into the sink, ended early by `EOS` (R114, R119). -/
def encryptSource {p : Profile} : (n : Nat) → Stream p → Stream p
  | 0, st => st
  | n + 1, st =>
    match srcRead st.source with
    | (none, rest) => { st with source := rest, short := true }
    | (some b, rest) =>
      let r := encryptByte st.session b
      encryptSource n { st with session := r.1, source := rest, sink := sinkWrite st.sink r.2 }

/-- IV phase of `DECS`: up to `n` source bytes decrypted and the result dropped, ended early by `EOS` (R115). -/
def discardSource {p : Profile} : (n : Nat) → Stream p → Stream p
  | 0, st => st
  | n + 1, st =>
    match srcRead st.source with
    | (none, rest) => { st with source := rest, short := true }
    | (some b, rest) => discardSource n { st with session := (decryptByte st.session b).1, source := rest }

/-- Payload phase of `DECS`: up to `n` source bytes decrypted into the sink, ended early by `EOS` (R115). -/
def decryptSource {p : Profile} : (n : Nat) → Stream p → Stream p
  | 0, st => st
  | n + 1, st =>
    match srcRead st.source with
    | (none, rest) => { st with source := rest, short := true }
    | (some b, rest) =>
      let r := decryptByte st.session b
      decryptSource n { st with session := r.1, source := rest, sink := sinkWrite st.sink r.2 }

/-- Tag phase of `DECS`: `n` more bytes of the transmitted tag, from byte `k`, taken as they are (R112, R115). -/
def receiveTag {p : Profile} : (n k : Nat) → BitVec p.width → Stream p → BitVec p.width × Stream p
  | 0, _, rx, st => (rx, st)
  | n + 1, k, rx, st =>
    match srcRead st.source with
    | (none, rest) => (rx, { st with source := rest, short := true })
    | (some b, rest) => receiveTag n (k + 1) (putTagByte rx k b) { st with source := rest }

/-- Tag phase of `ENCS`: the tag's bytes appended to the sink, least significant first (R112). -/
def sinkTag {p : Profile} (t : BitVec p.width) (sink : List Byte) : List Byte := (tagBytes t).foldl sinkWrite sink

/-- A phase that a short read in an earlier phase skips (R115, R119). -/
def unlessShort {p : Profile} (phase : Stream p → Stream p) (st : Stream p) : Stream p :=
  if st.short then st else phase st

/-! ### Phases over memory -/

/-- IV and payload phase of `ENCM`: `n` bytes from byte `i` of the region at `base`, encrypted to the same offsets of the
region at `out` (R116). -/
def encryptMem {p : Profile} (base out : Addr) : (n i : Nat) → Session p → Memory → Session p × Memory
  | 0, _, ss, m => (ss, m)
  | n + 1, i, ss, m =>
    let r := encryptByte ss (Memory.read m (byteAddr base i))
    encryptMem base out n (i + 1) r.1 (Memory.write m (byteAddr out i) r.2)

/-- IV phase of `DECM`: `n` bytes from byte `i` of the region at `base`, decrypted and the result dropped (R117). -/
def discardMem {p : Profile} (mem : Memory) (base : Addr) : (n i : Nat) → Session p → Session p
  | 0, _, ss => ss
  | n + 1, i, ss => discardMem mem base n (i + 1) (decryptByte ss (Memory.read mem (byteAddr base i))).1

/-- Payload phase of `DECM`: `n` bytes from byte `i` of the region at `base`, decrypted to the same offsets of the region
at `out` (R117). -/
def decryptMem {p : Profile} (base out : Addr) : (n i : Nat) → Session p → Memory → Session p × Memory
  | 0, _, ss, m => (ss, m)
  | n + 1, i, ss, m =>
    let r := decryptByte ss (Memory.read m (byteAddr base i))
    decryptMem base out n (i + 1) r.1 (Memory.write m (byteAddr out i) r.2)

/-- Tag phase of `DECM`: `n` more bytes of the transmitted tag, from byte `k` (R112, R117). -/
def readTag {p : Profile} (mem : Memory) (base : Addr) : (n k : Nat) → BitVec p.width → BitVec p.width
  | 0, _, rx => rx
  | n + 1, k, rx => readTag mem base n (k + 1) (putTagByte rx k (Memory.read mem (byteAddr base k)))

/-! ### The regions a buffer command checks (R42, R121, R156) -/

/-- The regions of `ENCM`: the IV, the plain payload, the frame. -/
abbrev EncmRegionsOK (s : State) : Prop :=
  RegionOK s.mapped s.engine.ivp s.engine.ivlen.toNat ∧ RegionOK s.mapped s.engine.src (payloadLen s.engine) ∧
    RegionOK s.mapped s.engine.dst s.engine.len.toNat

/-- The regions of `DECM`: the frame, the plain payload. -/
abbrev DecmRegionsOK (s : State) : Prop :=
  RegionOK s.mapped s.engine.src s.engine.len.toNat ∧ RegionOK s.mapped s.engine.dst (payloadLen s.engine)

/-! ### The commands -/

/-- The stream a command starts from: a fresh session under `KEY`, the ports as they are (R113). -/
def openStream (s : State) : Stream s.profile :=
  { session := initSession s.engine.key, source := s.source, sink := s.sink, short := false }

/-- `ENCS` (R114). -/
def execEncs (s : State) : Host.Outcome State Fault Refusal :=
  if frameTooSmall s.engine then .next (raise .size s)
  else if RegionOK s.mapped s.engine.ivp s.engine.ivlen.toNat then
    let st := encryptSource (payloadLen s.engine)
      (encryptMemToSink s.mem s.engine.ivp s.engine.ivlen.toNat 0 (openStream s))
    let t := finalizeTag st.session
    .next { s with
      engine := complete false st.short (close t s.engine)
      source := st.source
      sink := sinkTag t st.sink }
  else .next (raise .bus s)

/-- `DECS` (R115). -/
def execDecs (s : State) : Host.Outcome State Fault Refusal :=
  if frameTooSmall s.engine then .next (raise .size s)
  else
    let st := unlessShort (decryptSource (payloadLen s.engine)) (discardSource s.engine.ivlen.toNat (openStream s))
    let t := finalizeTag st.session
    let rx := if st.short then (0#_, st) else receiveTag s.profile.tagw 0 0#_ st
    let v := !rx.2.short && rx.1 == t
    .next { s with
      engine := complete v rx.2.short (close t s.engine)
      source := rx.2.source
      sink := rx.2.sink }

/-- `ENCM` (R116). -/
def execEncm (s : State) : Host.Outcome State Fault Refusal :=
  if frameTooSmall s.engine then .next (raise .size s)
  else if EncmRegionsOK s then
    let n := s.engine.ivlen.toNat
    let iv := encryptMem s.engine.ivp s.engine.dst n 0 (initSession s.engine.key) s.mem
    let pl := encryptMem s.engine.src (byteAddr s.engine.dst n) (payloadLen s.engine) 0 iv.1 iv.2
    let t := finalizeTag pl.1
    .next { s with
      engine := complete false false (close t s.engine)
      mem := Memory.writeBytes pl.2 (byteAddr s.engine.dst (n + payloadLen s.engine)) 0 (tagBytes t) }
  else .next (raise .bus s)

/-- `DECM` (R117). -/
def execDecm (s : State) : Host.Outcome State Fault Refusal :=
  if frameTooSmall s.engine then .next (raise .size s)
  else if DecmRegionsOK s then
    let n := s.engine.ivlen.toNat
    let iv := discardMem s.mem s.engine.src n 0 (initSession s.engine.key)
    let pl := decryptMem (byteAddr s.engine.src n) s.engine.dst (payloadLen s.engine) 0 iv s.mem
    let t := finalizeTag pl.1
    let rx := readTag pl.2 (byteAddr s.engine.src (n + payloadLen s.engine)) s.profile.tagw 0 0#_
    .next { s with
      engine := complete (rx == t) false (close t s.engine)
      mem := pl.2 }
  else .next (raise .bus s)

end Sys2Proof.Machine
end

