-- ==== Sys2Proof/Machine/Control.lean ====
section
/-! DEFINITION. The commands that are not cipher operations: `NOP` (R140) and `RST` (R141). -/

namespace Sys2Proof.Machine

/-- `NOP` (R140): no state changes, no `STATUS` field either. -/
def execNop (s : State) : Host.Outcome State Fault Refusal := .next s

/-- `RST` (R141): equal in effect to hardware reset. -/
def execRst (s : State) : Host.Outcome State Fault Refusal := .next (resetEngine s)

end Sys2Proof.Machine
end

