-- ==== Sys2Proof/WellFormed.lean ====
section
/-! DEFINITION. What a host may hand to the engine. An instruction needs no check: `DATA` is 8 bits by its type and no
command has another operand in its word (R66), so every term of `Instr` is well-formed. A host access and the immediate
of an assembler line do need one. -/

namespace Sys2Proof

/-- A host access is "one aligned 32-bit word … with `off` a multiple of 4"; no other access exists at the register
block (R28, R69). -/
def HostOffset.wf (off : HostOffset) : Bool := off.toNat % 4 == 0

/-- `imm8` of an assembler line "is a number `0 … 255`" (R67). -/
def immWf (n : Nat) : Bool := n < 256

end Sys2Proof
end

