-- ==== Sys2Proof/Machine/HostPort.lean ====
section
/-! DEFINITION. The host register block (R28): what a host access and the other inputs from the outside world do. -/

namespace Sys2Proof.Machine

/-- `HostRead(off)`: the value returned; it changes no state (R143). `CMD`, `KEYL`, `KEYH` and the unimplemented offsets
read 0. -/
def hostReadValue (off : HostOffset) (s : State) : Word32 :=
  match off.toNat with
  | 0x04 => statusWord s.engine
  | 0x10 => s.engine.len
  | 0x14 => s.engine.ivlen
  | 0x18 => s.engine.src
  | 0x1C => s.engine.dst
  | 0x20 => s.engine.ivp
  | 0x24 => s.engine.dout.setWidth 32
  | 0x28 => tagoutLow s.engine.tagout
  | 0x2C => tagoutHigh s.engine.tagout
  | 0x30 => idWord s.profile
  | _ => 0#32

/-- A host write other than to `CMD`: the operand register it names takes the value, a write to any other offset is
ignored (R142). -/
def writeOperand {p : Profile} (off : HostOffset) (v : Word32) (e : Engine p) : Engine p :=
  match off.toNat with
  | 0x08 => { e with key := writeKeyLow e.key v }
  | 0x0C => { e with key := writeKeyHigh e.key v }
  | 0x10 => { e with len := v }
  | 0x14 => { e with ivlen := v }
  | 0x18 => { e with src := v }
  | 0x1C => { e with dst := v }
  | 0x20 => { e with ivp := v }
  | _ => e

/-- A write of `CMD`: the command of the word runs to completion, an illegal word raises `E_ILL` (R60, R64, R142). -/
def runCommand (c : Word32) (s : State) : Host.Outcome State Fault Refusal :=
  match decode c with
  | .ok i => exec i s
  | .error _ => .next (raise .ill s)

/-- The record of a completed host transaction (R69). -/
@[reducible] def record (rw : Rw) (off : HostOffset) (v : Word32) (s : State) : State :=
  { s with trace := s.trace ++ [{ rw := rw, off := off, v := v }] }

/-- `HostWrite(off, v)` (R142). -/
def hostWrite (off : HostOffset) (v : Word32) (s : State) : Host.Outcome State Fault Refusal :=
  if off.wf then
    if off = 0x00#8 then runCommand v (record .write off v s)
    else .next { record .write off v s with engine := writeOperand off v s.engine }
  else .fault .hostAccessUnaligned

/-- `HostRead(off)` (R143): the value returned goes into the record. -/
def hostRead (off : HostOffset) (s : State) : Host.Outcome State Fault Refusal :=
  if off.wf then .next (record .read off (hostReadValue off s) s) else .fault .hostAccessUnaligned

/-- What an input from the outside world does: a host access (R142, R143), hardware reset (R170), a new stream source
(R46), a byte placed in data memory (R172). -/
def applyInput (inp : Input) (s : State) : Host.Outcome State Fault Refusal :=
  match inp with
  | .hostWrite off v => hostWrite off v s
  | .hostRead off => hostRead off s
  | .hardReset => .next (resetEngine s)
  | .setSource bytes => .next { s with source := bytes }
  | .placeByte a v => .next { s with mem := Memory.write s.mem a v }

/-- The command word that an opcode-table row's number stands for: bit `k` of `w` is bit `k` of the word, the bits from
`nbits` up are 0. -/
def tableWord (nbits w : Nat) : Word32 := BitVec.ofNat 32 (w % 2 ^ nbits)

end Sys2Proof.Machine
end

