-- ==== Sys2Proof/Machine/Step.lean ====
section
/-! DEFINITION. One step: the next access of the outside world is taken and runs to completion (R12). With none to come
the engine is idle and the step changes nothing (DEDUCED from R12 and R170, log entry 7). -/

namespace Sys2Proof.Machine

/-- One step of the machine (R12, R27). -/
def step (s : State) : Host.Outcome State Fault Refusal :=
  match s.inputs with
  | [] => .next s
  | inp :: rest => applyInput inp { s with inputs := rest }

/-- `s` with the host's write of this command word to `CMD` as the next access, so that the very next step runs it: it
stands for the host that supplies a program (log entry 11). -/
def State.withFetchWord (s : State) (nbits w : Nat) : State :=
  { s with inputs := .hostWrite 0x00#8 (tableWord nbits w) :: s.inputs }

end Sys2Proof.Machine
end

