-- ==== Sys2Proof/Machine/Assembler.lean ====
section
/-! DEFINITION. The listing syntax of a test program and the host accesses each line stands for (R67–R69): the lines as
data, the reading of a line's text, and the expansion of a line. Text is a list of characters. DESIGN CHOICE for the
lexical points that R67 leaves open (log entry 14). -/

namespace Sys2Proof.Machine

/-- A register name of the host register block (R28). -/
inductive RegName
  | cmd | status | keyl | keyh | len | ivlen | src | dst | ivp | dout | tagoutl | tagouth | id
deriving DecidableEq, Repr

/-- The offset of a register of the block (R28). -/
def regOffset : RegName → HostOffset
  | .cmd => 0x00#8
  | .status => 0x04#8
  | .keyl => 0x08#8
  | .keyh => 0x0C#8
  | .len => 0x10#8
  | .ivlen => 0x14#8
  | .src => 0x18#8
  | .dst => 0x1C#8
  | .ivp => 0x20#8
  | .dout => 0x24#8
  | .tagoutl => 0x28#8
  | .tagouth => 0x2C#8
  | .id => 0x30#8

/-- A line of a program that is one transaction: an access or a command (R67). Numbers are as written. -/
inductive AsmLine
  | wr (r : RegName) (v : Nat)
  | rd (r : RegName)
  | nop
  | init
  | encb (imm8 : Nat)
  | decb (imm8 : Nat)
  | final
  | encs
  | decs
  | encm
  | decm
  | rst
deriving DecidableEq, Repr

/-- A pseudo-instruction (R68). -/
inductive PseudoLine
  | setkey (v : Nat)
  | setbuf (src dst ivp ivlen len : Nat)
  | setstream (ivp ivlen len : Nat)
  | encstr (text : List Char)
  | gettag
deriving DecidableEq, Repr

/-- A line of a program as written. -/
inductive SourceLine
  | plain (line : AsmLine)
  | pseudo (line : PseudoLine)
deriving DecidableEq, Repr

/-! ### What a line stands for -/

/-- `HostWrite(0x00, word)` with the word of a command (R67, R69). -/
def asmCommand (i : Instr) : Input := .hostWrite 0x00#8 (encode i)

/-- `encb imm8` or `decb imm8`, for an immediate of `0 … 255` (R67). -/
def asmByte (i : Byte → Instr) (n : Nat) : Option Input :=
  if immWf n then some (asmCommand (i (BitVec.ofNat 8 n))) else none

/-- The transaction of a line, by the table of R67, or none if its operand is out of range (log entry 14). -/
def transaction (line : AsmLine) : Option Input :=
  match line with
  | .wr r v => if v < 2 ^ 32 then some (.hostWrite (regOffset r) (BitVec.ofNat 32 v)) else none
  | .rd r => some (.hostRead (regOffset r))
  | .nop => some (asmCommand .nop)
  | .init => some (asmCommand .init)
  | .encb n => asmByte .encb n
  | .decb n => asmByte .decb n
  | .final => some (asmCommand .final)
  | .encs => some (asmCommand .encs)
  | .decs => some (asmCommand .decs)
  | .encm => some (asmCommand .encm)
  | .decm => some (asmCommand .decm)
  | .rst => some (asmCommand .rst)

/-- The lines that a pseudo-instruction expands to, by the table of R68. The order of the `wr` lines does not matter, as R68
says: each is a `hostWrite` that changes one operand register (`writeOperand`, `writeOperand_comm`), and `exec` reads the
registers when a command runs. DESIGN CHOICE: R68 does not say which byte a character outside ASCII stands for; the model
takes a code point of `128 … 255` as the byte, and one above 255 as an operand out of range (log entry 14). -/
def expand (p : Profile) (line : PseudoLine) : List AsmLine :=
  match line with
  | .setkey v =>
    match p with
    | .w32 => [.wr .keyl v]
    | .w64 => [.wr .keyl (v % 2 ^ 32), .wr .keyh (v / 2 ^ 32)]
  | .setbuf src dst ivp ivlen len => [.wr .src src, .wr .dst dst, .wr .ivp ivp, .wr .ivlen ivlen, .wr .len len]
  | .setstream ivp ivlen len => [.wr .ivp ivp, .wr .ivlen ivlen, .wr .len len]
  | .encstr text => text.map fun c => .encb c.toNat
  | .gettag =>
    match p with
    | .w32 => [.rd .tagoutl]
    | .w64 => [.rd .tagoutl, .rd .tagouth]

/-- The host accesses of a line, or none if an operand is out of range (R67, R68). DESIGN CHOICE for what is out of range,
a character of `encstr` outside ASCII among it (log entry 14). -/
def assemble (p : Profile) (line : SourceLine) : Option (List Input) :=
  match line with
  | .plain l => [l].mapM transaction
  | .pseudo q => (expand p q).mapM transaction

/-! ### Reading a line's text -/

/-- A word or a quoted string of a line. -/
inductive AsmToken
  | word (w : List Char)
  | chr (c : Char)
  | str (text : List Char)
deriving DecidableEq, Repr

/-- The token of the characters of a word read so far, last one first. -/
def endWord (acc : List Char) : List AsmToken := if acc = [] then [] else [.word acc.reverse]

/-- Inside which quotes the reader stands. -/
inductive AsmQuote
  | outside
  | single
  | double
deriving DecidableEq, Repr

/-- The tokens of a line: words in lower case, since mnemonics are case-insensitive, separated by blanks and commas; a
quoted character; a quoted string; `;` starts a comment (R67). -/
def asmTokens : AsmQuote → List Char → List Char → Option (List AsmToken)
  | .outside, acc, [] => some (endWord acc)
  | .single, _, [] => none
  | .double, _, [] => none
  | .outside, acc, c :: rest =>
    if c = ';' then some (endWord acc)
    else if c = ' ' ∨ c = ',' ∨ c = '\t' then (asmTokens .outside [] rest).map (endWord acc ++ ·)
    else if c = '\'' then (asmTokens .single [] rest).map (endWord acc ++ ·)
    else if c = '"' then (asmTokens .double [] rest).map (endWord acc ++ ·)
    else asmTokens .outside (c.toLower :: acc) rest
  | .single, acc, c :: rest =>
    match acc with
    | [] => asmTokens .single [c] rest
    | q :: _ => if c = '\'' then (asmTokens .outside [] rest).map (.chr q :: ·) else none
  | .double, acc, c :: rest =>
    if c = '"' then (asmTokens .outside [] rest).map (.str acc.reverse :: ·)
    else asmTokens .double (c :: acc) rest

/-- The value of a digit in a base, if it is one. -/
def digitValue (base : Nat) (c : Char) : Option Nat :=
  let v := if '0' ≤ c ∧ c ≤ '9' then c.toNat - 48 else if 'a' ≤ c ∧ c ≤ 'f' then c.toNat - 87 else 16
  if v < base then some v else none

/-- The number of a digit sequence, continued from `n`. -/
def readDigits (base : Nat) : Nat → List Char → Option Nat
  | n, [] => some n
  | n, c :: cs =>
    match digitValue base c with
    | some v => readDigits base (base * n + v) cs
    | none => none

/-- A number, "decimal, or hexadecimal with `0x`" (R67). -/
def readNumber : List Char → Option Nat
  | [] => none
  | '0' :: 'x' :: [] => none
  | '0' :: 'x' :: cs => readDigits 16 0 cs
  | cs => readDigits 10 0 cs

/-- An operand that is a number or a quoted ASCII character. R67 gives these two forms for `imm8`. DESIGN CHOICE: it gives no
form for the value of `wr` and the operands of `setkey`, `setbuf` and `setstream`; the model reads the same two there, and
refuses a quoted character outside ASCII everywhere (log entry 14). -/
def readOperand : AsmToken → Option Nat
  | .word w => readNumber w
  | .chr c => if c.toNat < 128 then some c.toNat else none
  | .str _ => none

/-- The register a name in lower case stands for (R28). -/
def readReg : List Char → Option RegName
  | ['c', 'm', 'd'] => some .cmd
  | ['s', 't', 'a', 't', 'u', 's'] => some .status
  | ['k', 'e', 'y', 'l'] => some .keyl
  | ['k', 'e', 'y', 'h'] => some .keyh
  | ['l', 'e', 'n'] => some .len
  | ['i', 'v', 'l', 'e', 'n'] => some .ivlen
  | ['s', 'r', 'c'] => some .src
  | ['d', 's', 't'] => some .dst
  | ['i', 'v', 'p'] => some .ivp
  | ['d', 'o', 'u', 't'] => some .dout
  | ['t', 'a', 'g', 'o', 'u', 't', 'l'] => some .tagoutl
  | ['t', 'a', 'g', 'o', 'u', 't', 'h'] => some .tagouth
  | ['i', 'd'] => some .id
  | _ => none

/-- A line without operands (R67, R68). -/
def readPlain : List Char → Option SourceLine
  | ['n', 'o', 'p'] => some (.plain .nop)
  | ['i', 'n', 'i', 't'] => some (.plain .init)
  | ['f', 'i', 'n', 'a', 'l'] => some (.plain .final)
  | ['e', 'n', 'c', 's'] => some (.plain .encs)
  | ['d', 'e', 'c', 's'] => some (.plain .decs)
  | ['e', 'n', 'c', 'm'] => some (.plain .encm)
  | ['d', 'e', 'c', 'm'] => some (.plain .decm)
  | ['r', 's', 't'] => some (.plain .rst)
  | ['g', 'e', 't', 't', 'a', 'g'] => some (.pseudo .gettag)
  | _ => none

/-- A line whose operands are numbers (R67, R68). -/
def readNumeric : List Char → List Nat → Option SourceLine
  | ['e', 'n', 'c', 'b'], [n] => some (.plain (.encb n))
  | ['d', 'e', 'c', 'b'], [n] => some (.plain (.decb n))
  | ['s', 'e', 't', 'k', 'e', 'y'], [v] => some (.pseudo (.setkey v))
  | ['s', 'e', 't', 'b', 'u', 'f'], [src, dst, ivp, ivlen, len] => some (.pseudo (.setbuf src dst ivp ivlen len))
  | ['s', 'e', 't', 's', 't', 'r', 'e', 'a', 'm'], [ivp, ivlen, len] => some (.pseudo (.setstream ivp ivlen len))
  | _, _ => none

/-- The line that a list of tokens makes, by its first word (R67, R68). -/
def readTokens : List AsmToken → Option SourceLine
  | [.word m] => readPlain m
  | [.word ['w', 'r'], .word r, v] => (readReg r).bind fun r => (readOperand v).map fun v => .plain (.wr r v)
  | [.word ['r', 'd'], .word r] => (readReg r).map fun r => .plain (.rd r)
  | [.word ['e', 'n', 'c', 's', 't', 'r'], .str text] => some (.pseudo (.encstr text))
  | .word m :: operands => (operands.mapM readOperand).bind (readNumeric m)
  | _ => none

/-- The line of a text; a blank or comment line is no line (R67). -/
def readLine (text : List Char) : Option (Option SourceLine) :=
  match asmTokens .outside [] text with
  | none => none
  | some [] => some none
  | some ts => (readTokens ts).map some

/-- The host accesses of a line's text (R67–R69). -/
def assembleLine (p : Profile) (text : List Char) : Option (List Input) :=
  match readLine text with
  | none => none
  | some none => some []
  | some (some line) => assemble p line

/-- The host accesses of a program, line by line in order (R69). -/
def assembleProgram (p : Profile) (lines : List (List Char)) : Option (List Input) :=
  (lines.mapM (assembleLine p)).map List.flatten

end Sys2Proof.Machine
end

