-- ==== Sys2Proof/Machine/Frame.lean ====
section
/-! DEFINITION. The byte sequences of R110 without ports and addresses: a session run over a list of bytes, the tag it
ends with, and the frame IV‖ciphertext‖tag. No command calls these; statements compare the commands with them. -/

namespace Sys2Proof.Machine

/-- The session after `encryptByte` of each byte in order, and the cipher bytes (R91, R110). -/
def encryptBytes {p : Profile} (ss : Session p) : List Byte → Session p × List Byte
  | [] => (ss, [])
  | b :: bs =>
    let r := encryptByte ss b
    let rs := encryptBytes r.1 bs
    (rs.1, r.2 :: rs.2)

/-- The session after `decryptByte` of each byte in order, and the plain bytes (R92). -/
def decryptBytes {p : Profile} (ss : Session p) : List Byte → Session p × List Byte
  | [] => (ss, [])
  | c :: cs =>
    let r := decryptByte ss c
    let rs := decryptBytes r.1 cs
    (rs.1, r.2 :: rs.2)

/-- The cipher bytes of a message under a key (R110). -/
def cipherOf {p : Profile} (k : BitVec p.width) (plain : List Byte) : List Byte :=
  (encryptBytes (initSession k) plain).2

/-- The tag of a message under a key (R93). -/
def tagOf {p : Profile} (k : BitVec p.width) (plain : List Byte) : BitVec p.width :=
  finalizeTag (encryptBytes (initSession k) plain).1

/-- The plain bytes that cipher bytes decrypt to under a key (R92). -/
def plainOf {p : Profile} (k : BitVec p.width) (cipher : List Byte) : List Byte :=
  (decryptBytes (initSession k) cipher).2

/-- The tag a decryption of cipher bytes under a key computes (R93). -/
def tagOfCipher {p : Profile} (k : BitVec p.width) (cipher : List Byte) : BitVec p.width :=
  finalizeTag (decryptBytes (initSession k) cipher).1

/-- The frame of an IV and a payload: IV field, ciphertext, tag (R110). -/
def frameOf {p : Profile} (k : BitVec p.width) (iv payload : List Byte) : List Byte :=
  cipherOf k (iv ++ payload) ++ tagBytes (tagOf k (iv ++ payload))

/-- The `n` bytes of memory at `base … base+n−1`, lowest address first (R121). -/
def memBytes (m : Memory) (base : Addr) (n : Nat) : List Byte :=
  (List.range n).map fun i => Memory.read m (byteAddr base i)

end Sys2Proof.Machine
end

