-- ==== Sys2Proof/Safety.lean ====
section
/-! DEFINITION. The terms in which claims speak of a run: the values a register may hold, the invariant of the machine,
regions that do not touch, lines whose operands fit, and accesses one after another. -/

namespace Sys2Proof.Machine

/-- The values `CUR` takes: `0, 8, …, W − 16` (R21). -/
abbrev CursorLegal (p : Profile) (c : Cursor) : Prop := c.toNat % 8 = 0 ∧ c.toNat ≤ p.width - 16

/-- The relations between the engine's registers that every command keeps: a legal cursor (R21), an idle engine holds no
session (R31, R94), the pads of an open session come from one key (R90), a reported fault is also sticky and reports
neither validity nor a short read (R151), a valid tag was received whole (R115). -/
structure EngineInv {p : Profile} (e : Engine p) : Prop where
  cursor : CursorLegal p e.session.cur
  idle : e.phase = .idle → e.session = Session.zero p
  pads : e.phase = .opened → e.session.ipad ^^^ e.session.opad = p.ipadC ^^^ p.opadC
  faulted : e.err ≠ .ok → e.eflag = true ∧ e.valid = false ∧ e.short = false
  whole : e.valid = true → e.short = false

/-- The invariant of the machine: memory in its canonical form, and the engine's own invariant. -/
structure Inv (s : State) : Prop where
  mem : Memory.wf s.mem
  engine : EngineInv s.engine

/-- Two regions with no byte in common (R53): a region of length 0 has no byte, wherever its base is. -/
abbrev RegionsApart (b₁ : Addr) (n₁ : Nat) (b₂ : Addr) (n₂ : Nat) : Prop :=
  n₁ = 0 ∨ n₂ = 0 ∨ b₁.toNat + n₁ ≤ b₂.toNat ∨ b₂.toNat + n₂ ≤ b₁.toNat

/-- The byte address `a` lies in the region of `n` bytes at `base`. -/
abbrev InRegion (base : Addr) (n : Nat) (a : Addr) : Prop := ∃ i, i < n ∧ a = byteAddr base i

/-- What a command that ends with fault `f` leaves: the four `STATUS` fields rewritten and nothing else (R151). -/
abbrev faulted (f : Err) (s : State) : State :=
  { s with engine := { s.engine with err := f, valid := false, short := false, eflag := true } }

/-- The registers after a controller command that completes: the session closed, the tag latched, the result reported, and
every other register kept (R94, R152). -/
abbrev closed (valid short : Bool) {p : Profile} (t : BitVec p.width) (e : Engine p) : Engine p :=
  { e with
    session := { seed := 0#_, tag := 0#_, ipad := 0#_, opad := 0#_, cur := 0#6 }
    phase := .idle, tagout := t, err := .ok, valid := valid, short := short }

/-- A word that R64 calls illegal, by the numbers in its fields: `OP` above 9, a nonzero `Z0` or `Z1`, or a nonzero `DATA`
outside `ENCB` and `DECB`. -/
abbrev IllegalWord (c : Word32) : Prop :=
  9 < c.toNat % 16 ∨ c.toNat / 2 ^ 4 % 16 ≠ 0 ∨ c.toNat / 2 ^ 16 ≠ 0 ∨
    (c.toNat / 2 ^ 8 % 256 ≠ 0 ∧ c.toNat % 16 ≠ 2 ∧ c.toNat % 16 ≠ 3)

/-- The size guard has passed (R111). -/
abbrev FrameFits (s : State) : Prop := s.engine.ivlen.toNat + s.profile.width / 8 ≤ s.engine.len.toNat

/-- `P = LEN − IVLEN − TAGW` (R111). -/
abbrev payloadOf (s : State) : Nat := s.engine.len.toNat - s.engine.ivlen.toNat - s.profile.width / 8

/-- The IV bytes of an encryption (R114, R116). -/
abbrev ivBytes (s : State) : List Byte := memBytes s.mem s.engine.ivp s.engine.ivlen.toNat

/-- The plain payload of `ENCM` (R116). -/
abbrev payloadBytes (s : State) : List Byte := memBytes s.mem s.engine.src (payloadOf s)

/-- The operands of a line are in range: an immediate of 8 bits (R67), a register value of its width, a text of characters
that each stand for a byte (log entry 14). -/
def lineFits (p : Profile) : SourceLine → Bool
  | .plain (.wr _ v) => decide (v < 2 ^ 32)
  | .plain (.encb n) => decide (n < 256)
  | .plain (.decb n) => decide (n < 256)
  | .plain _ => true
  | .pseudo (.setkey v) => decide (v < 2 ^ p.width)
  | .pseudo (.setbuf src dst ivp ivlen len) => [src, dst, ivp, ivlen, len].all fun v => decide (v < 2 ^ 32)
  | .pseudo (.setstream ivp ivlen len) => [ivp, ivlen, len].all fun v => decide (v < 2 ^ 32)
  | .pseudo (.encstr text) => text.all fun c => decide (c.toNat < 256)
  | .pseudo .gettag => true

/-- One input after another, each leading to a next state (R12). -/
def runInputs : List Input → State → Option State
  | [], s => some s
  | inp :: rest, s =>
    match applyInput inp s with
    | .next t => runInputs rest t
    | .fault _ => none
    | .refused _ => none

/-- One byte command after another, each completing, with the `DOUT` each leaves (R96, R97). -/
def runBytes (cmd : Byte → Instr) : List Byte → State → Option (State × List Byte)
  | [], s => some (s, [])
  | b :: bs, s =>
    match exec (cmd b) s with
    | .next t => (runBytes cmd bs t).map fun r => (r.1, t.engine.dout :: r.2)
    | .fault _ => none
    | .refused _ => none

end Sys2Proof.Machine
end

