-- ==== Sys2Proof/Certificates/Slice0/Obligations.lean ====
section
/-! DEFINITION. What is claimed of the machine, each statement from the numbered rules of the spec. -/

open Sys2Proof Sys2Proof.Machine

/-! ### Reset, `NOP`, the step -/

/-- R31: hardware reset, `RST` and the state after reset have the same registers, every one 0; memory, source
and sink are not touched; `ID` reads `W`. That hardware reset also leaves the accesses still to come and the record of the
completed ones in place is the model's choice (log entries 5 and 15). -/
def Obligations.ResetZeroesEveryRegister : Prop :=
  ∀ s : State, ∃ e : Engine s.profile,
    exec .rst s = .next { s with engine := e } ∧ applyInput .hardReset s = .next { s with engine := e } ∧
      (∀ mapped mem source, (State.resetWith s.profile mapped mem source).engine = e) ∧
      e.session.seed = 0#_ ∧ e.session.tag = 0#_ ∧ e.session.ipad = 0#_ ∧ e.session.opad = 0#_ ∧ e.session.cur = 0#6 ∧
      e.phase = .idle ∧ e.key = 0#_ ∧ e.len = 0#32 ∧ e.ivlen = 0#32 ∧ e.src = 0#32 ∧ e.dst = 0#32 ∧ e.ivp = 0#32 ∧
      e.dout = 0#8 ∧ e.tagout = 0#_ ∧ statusWord e = 0x00000000#32 ∧
      (hostReadValue 0x30#8 { s with engine := e }).toNat = s.profile.width

/-- R140: `NOP` changes no state at all. -/
def Obligations.NopChangesNothing : Prop := ∀ s : State, exec .nop s = .next s

/-- The step runs the command of a word the host writes to `CMD`, on the state with that access taken and recorded
(the record is the model's own, log entry 5). -/
def Obligations.StepRunsDecodedCommand : Prop :=
  ∀ (s : State) (c : Word32) (rest : List Input) (i : Instr),
    s.inputs = .hostWrite 0x00#8 c :: rest → decode c = .ok i →
      step s = exec i { s with inputs := rest, trace := s.trace ++ [⟨.write, 0x00#8, c⟩] }

/-- With no access to come the engine is idle and a step changes nothing; an access that is not an aligned word is the only
thing a step faults on, and a step never refuses (log entries 5, 6
and 7). -/
def Obligations.StepStopsOnlyOnUnalignedAccess : Prop :=
  ∀ s : State,
    (s.inputs = [] → step s = .next s) ∧
      (∀ f, step s = .fault f ↔
        ∃ (off : HostOffset) (rest : List Input), off.toNat % 4 ≠ 0 ∧
          ((∃ v, s.inputs = .hostWrite off v :: rest) ∨ s.inputs = .hostRead off :: rest)) ∧
      ∀ r, step s ≠ .refused r

/-- The profile is fixed when the engine is built (R6): no step changes it. That no step changes which addresses are mapped
is the model's choice: the spec leaves the address predicate to the platform (R7), and the model's environment does not
remap memory (log entry 5). -/
def Obligations.BuildParametersNeverChange : Prop :=
  ∀ s t : State, step s = .next t → t.profile = s.profile ∧ t.mapped = s.mapped

/-- What the environment does between commands touches its own space only: a new source replaces `Src`; a byte placed in
memory is read back at its own address alone (log entry 5). -/
def Obligations.EnvironmentTouchesOnlyItsSpace : Prop :=
  ∀ (s : State) (rest : List Input),
    (∀ bytes, s.inputs = .setSource bytes :: rest → step s = .next { s with source := bytes, inputs := rest }) ∧
      ∀ a v, s.inputs = .placeByte a v :: rest → ∃ m : Memory,
        step s = .next { s with mem := m, inputs := rest } ∧
          ∀ b, Memory.read m b = if b = a then v else Memory.read s.mem b

/-! ### Encoding -/

/-- 30_encoding.md sections 1 and 3: every command's word decodes to it, and a word that decodes to a command is that command's word. -/
def Obligations.DecodeAndEncodeAgree : Prop :=
  (∀ i : Instr, decode (encode i) = .ok i) ∧ ∀ (c : Word32) (i : Instr), decode c = .ok i → encode i = c

/-- Words written out from 30_encoding.md sections 1 and 3 stand for their commands. -/
def Obligations.SpecWordsDecode : Prop :=
  decode 0x00000000#32 = .ok .nop ∧ decode 0x00000001#32 = .ok .init ∧ decode 0x00004802#32 = .ok (.encb 0x48#8) ∧
    decode 0x00006903#32 = .ok (.decb 0x69#8) ∧ decode 0x00000004#32 = .ok .final ∧
    decode 0x00000005#32 = .ok .encs ∧ decode 0x00000006#32 = .ok .decs ∧ decode 0x00000007#32 = .ok .encm ∧
    decode 0x00000008#32 = .ok .decm ∧ decode 0x00000009#32 = .ok .rst

/-- 30_encoding.md section 3, which the spec derives from R61 and R62: exactly `8 + 2·256 = 520` words are legal. -/
def Obligations.LegalWordsNumber520 : Prop := {c : Word32 | ∃ i, decode c = .ok i}.ncard = 8 + 2 * 256

/-- 30_encoding.md section 4, 60_exceptions.md section 3: a word is illegal exactly by its fields; writing one to `CMD` raises
`E_ILL` and changes no register but `STATUS`; every other word is a command. The record of the access is the model's own
(log entry 5). -/
def Obligations.IllegalWordRaisesEIll : Prop :=
  ∀ (s : State) (c : Word32) (rest : List Input), s.inputs = .hostWrite 0x00#8 c :: rest →
    (IllegalWord c →
      step s = .next (faulted .ill { s with inputs := rest, trace := s.trace ++ [⟨.write, 0x00#8, c⟩] })) ∧
      (¬ IllegalWord c → ∃ i, decode c = .ok i)

/-- A line of a program whose operands are in range expands, and every access it expands to is one the engine takes: none
stops the machine, in any state. That a line with an operand out of range expands to nothing, and which characters of a text
are in range, is the model's choice (log entry 14). What a line expands to is stated next. -/
def Obligations.AssembledLinesNeverStop : Prop :=
  ∀ (p : Profile) (line : SourceLine),
    (assemble p line).isSome = lineFits p line ∧
      ∀ accesses : List Input, assemble p line = some accesses →
        ∀ inp ∈ accesses, ∀ s : State, ∃ t, applyInput inp s = .next t

/-- 30_encoding.md section 6: the transactions that each line of a program stands for, with the offsets of 10_state.md
section 5. For a character of `encstr` outside ASCII the byte is the model's choice (log entry 14). -/
def Obligations.LinesExpandToTheirTransactions : Prop :=
  ∀ p : Profile,
    (∀ x ∈ [(RegName.cmd, 0x00#8), (.status, 0x04#8), (.keyl, 0x08#8), (.keyh, 0x0C#8), (.len, 0x10#8), (.ivlen, 0x14#8),
        (.src, 0x18#8), (.dst, 0x1C#8), (.ivp, 0x20#8), (.dout, 0x24#8), (.tagoutl, 0x28#8), (.tagouth, 0x2C#8),
        (.id, 0x30#8)],
      (∀ v : Word32, assemble p (.plain (.wr x.1 v.toNat)) = some [.hostWrite x.2 v]) ∧
        assemble p (.plain (.rd x.1)) = some [.hostRead x.2]) ∧
      (∀ x ∈ [(AsmLine.nop, 0x00000000#32), (.init, 0x00000001#32), (.final, 0x00000004#32), (.encs, 0x00000005#32),
          (.decs, 0x00000006#32), (.encm, 0x00000007#32), (.decm, 0x00000008#32), (.rst, 0x00000009#32)],
        assemble p (.plain x.1) = some [.hostWrite 0x00#8 x.2]) ∧
      (∀ b : Byte,
        assemble p (.plain (.encb b.toNat)) = some [.hostWrite 0x00#8 (0x00000002#32 ||| b.setWidth 32 <<< 8)] ∧
          assemble p (.plain (.decb b.toNat)) = some [.hostWrite 0x00#8 (0x00000003#32 ||| b.setWidth 32 <<< 8)]) ∧
      (∀ v : Word32, assemble .w32 (.pseudo (.setkey v.toNat)) = some [.hostWrite 0x08#8 v]) ∧
      (∀ v : BitVec 64, assemble .w64 (.pseudo (.setkey v.toNat)) =
        some [.hostWrite 0x08#8 (v.setWidth 32), .hostWrite 0x0C#8 ((v >>> 32).setWidth 32)]) ∧
      (∀ src dst ivp ivlen len : Word32,
        assemble p (.pseudo (.setbuf src.toNat dst.toNat ivp.toNat ivlen.toNat len.toNat)) =
          some [.hostWrite 0x18#8 src, .hostWrite 0x1C#8 dst, .hostWrite 0x20#8 ivp, .hostWrite 0x14#8 ivlen,
            .hostWrite 0x10#8 len]) ∧
      (∀ ivp ivlen len : Word32,
        assemble p (.pseudo (.setstream ivp.toNat ivlen.toNat len.toNat)) =
          some [.hostWrite 0x20#8 ivp, .hostWrite 0x14#8 ivlen, .hostWrite 0x10#8 len]) ∧
      (∀ text : List Char, (∀ c ∈ text, c.toNat < 256) → assemble p (.pseudo (.encstr text)) =
        some (text.map fun c => .hostWrite 0x00#8 (0x00000002#32 ||| BitVec.ofNat 32 c.toNat <<< 8))) ∧
      assemble .w32 (.pseudo .gettag) = some [.hostRead 0x28#8] ∧
      assemble .w64 (.pseudo .gettag) = some [.hostRead 0x28#8, .hostRead 0x2C#8]

/-- 30_encoding.md section 6, its last sentence: the `wr` lines of an expansion give the operand registers their values in
whatever order they run, and change nothing else: a command reads the registers only when it executes. The record of the
accesses, which does hold their order, is the model's own (log entry 5). -/
def Obligations.ExpansionsSetTheOperandsInAnyOrder : Prop :=
  ∀ (s : State) (accesses order : List Input), order.Perm accesses →
    (∀ v : Nat, assemble s.profile (.pseudo (.setkey v)) = some accesses → ∃ trace : List Transaction,
      runInputs order s = some { s with
        engine := { s.engine with key := BitVec.ofNat s.profile.width v }
        trace := trace }) ∧
      (∀ src dst ivp ivlen len : Word32,
        assemble s.profile (.pseudo (.setbuf src.toNat dst.toNat ivp.toNat ivlen.toNat len.toNat)) = some accesses →
        ∃ trace : List Transaction, runInputs order s = some { s with
          engine := { s.engine with src := src, dst := dst, ivp := ivp, ivlen := ivlen, len := len }
          trace := trace }) ∧
      ∀ ivp ivlen len : Word32,
        assemble s.profile (.pseudo (.setstream ivp.toNat ivlen.toNat len.toNat)) = some accesses →
        ∃ trace : List Transaction, runInputs order s = some { s with
          engine := { s.engine with ivp := ivp, ivlen := ivlen, len := len }
          trace := trace }

/-! ### The register block -/

/-- 43_control.md: `HostWrite(off, v)` for every aligned offset: `CMD` runs the word, an operand register takes the
value, any other write is ignored; no other register changes. The record of the access is the model's own (log entry 5). -/
def Obligations.HostWriteFollowsTheRegisterMap : Prop :=
  ∀ (s : State) (off : HostOffset) (v : Word32) (rest : List Input),
    s.inputs = .hostWrite off v :: rest → off.toNat % 4 = 0 →
      (off = 0x00#8 →
        (∀ i, decode v = .ok i → step s = exec i { s with inputs := rest, trace := s.trace ++ [⟨.write, off, v⟩] }) ∧
          ∀ err, decode v = .error err →
            step s = .next (faulted .ill { s with inputs := rest, trace := s.trace ++ [⟨.write, off, v⟩] })) ∧
        (off ≠ 0x00#8 → ∃ (key : BitVec s.profile.width) (len ivlen : Word32) (src dst ivp : Addr),
          step s = .next { s with
            engine := { s.engine with key := key, len := len, ivlen := ivlen, src := src, dst := dst, ivp := ivp }
            inputs := rest
            trace := s.trace ++ [⟨.write, off, v⟩] } ∧
          key.toNat = (if off = 0x08#8 then s.engine.key.toNat / 2 ^ 32 * 2 ^ 32 + v.toNat
            else if off = 0x0C#8 ∧ s.profile = .w64 then v.toNat * 2 ^ 32 + s.engine.key.toNat % 2 ^ 32
            else s.engine.key.toNat) ∧
          len = (if off = 0x10#8 then v else s.engine.len) ∧
          ivlen = (if off = 0x14#8 then v else s.engine.ivlen) ∧
          src = (if off = 0x18#8 then v else s.engine.src) ∧
          dst = (if off = 0x1C#8 then v else s.engine.dst) ∧
          ivp = (if off = 0x20#8 then v else s.engine.ivp))

/-- 43_control.md: `HostRead(off)` for every aligned offset returns the register's value and changes no state (the record of the
access is the model's own, log entry 5). -/
def Obligations.HostReadReturnsTheRegister : Prop :=
  ∀ (s : State) (off : HostOffset) (rest : List Input),
    s.inputs = .hostRead off :: rest → off.toNat % 4 = 0 →
      ∃ v : Word32, step s = .next { s with inputs := rest, trace := s.trace ++ [⟨.read, off, v⟩] } ∧
        v.toNat =
          if off = 0x04#8 then (statusWord s.engine).toNat
          else if off = 0x10#8 then s.engine.len.toNat
          else if off = 0x14#8 then s.engine.ivlen.toNat
          else if off = 0x18#8 then s.engine.src.toNat
          else if off = 0x1C#8 then s.engine.dst.toNat
          else if off = 0x20#8 then s.engine.ivp.toNat
          else if off = 0x24#8 then s.engine.dout.toNat
          else if off = 0x28#8 then s.engine.tagout.toNat % 2 ^ 32
          else if off = 0x2C#8 then s.engine.tagout.toNat / 2 ^ 32
          else if off = 0x30#8 then s.profile.width
          else 0

/-- The fields of `STATUS` stand at the bits of the table of R25, and bits 31:7 read as 0. -/
def Obligations.StatusFieldsStandAtTheirBits : Prop :=
  ∀ (p : Profile) (e : Engine p),
    (statusWord e).toNat =
      (match e.phase with | .idle => 0 | .opened => 1) + 2 * e.valid.toNat + 4 * e.short.toNat + 8 * e.eflag.toNat +
        16 * (match e.err with | .ok => 0 | .ill => 1 | .seq => 2 | .size => 3 | .bus => 4)

/-- 10_state.md sections 1 and 5: two machines that differ in the key and the session registers only cannot be told apart by a host
read. -/
def Obligations.HostReadsRevealNoSecret : Prop :=
  ∀ (s : State) (key : BitVec s.profile.width) (ss : Session s.profile) (off : HostOffset),
    hostReadValue off { s with engine := { s.engine with key := key, session := ss } } = hostReadValue off s

/-! ### The primitives -/

/-- R80: three xorshift steps with the triple of the profile, each on the result of the one before. -/
def Obligations.AdvanceUsesTheProfileTriple : Prop :=
  (∀ x x₁ x₂ : BitVec 32, x₁ = x ^^^ (x <<< 13) → x₂ = x₁ ^^^ (x₁ >>> 17) →
      advance (p := .w32) x = x₂ ^^^ (x₂ <<< 5)) ∧
    ∀ x x₁ x₂ : BitVec 64, x₁ = x ^^^ (x <<< 13) → x₂ = x₁ ^^^ (x₁ >>> 7) →
      advance (p := .w64) x = x₂ ^^^ (x₂ <<< 17)

/-- 40_primitives.md section 1, which the spec derives from R80: `advance` maps 0 to 0, is linear over exclusive-or, is a bijection, and is 0 on 0 alone. -/
def Obligations.AdvanceIsALinearBijection : Prop :=
  ∀ p : Profile,
    advance (0#p.width) = 0#p.width ∧ (∀ a b : BitVec p.width, advance (a ^^^ b) = advance a ^^^ advance b) ∧
      Function.Bijective (advance (p := p)) ∧ ∀ x : BitVec p.width, advance x = 0#p.width ↔ x = 0#p.width

/-- 40_primitives.md section 2, with the spec's derived remark on the top byte: at every legal cursor the byte is placed unsigned at bits `c+7 : c`, below bit `W − 8`; the accumulator is
diffused and the cursor steps to a legal one. -/
def Obligations.FoldByteUsesTheLaneBelowTheTopByte : Prop :=
  ∀ (p : Profile) (t : BitVec p.width) (c : Cursor) (b : Byte), CursorLegal p c →
    ∃ l : BitVec p.width, l.toNat = b.toNat * 2 ^ c.toNat ∧ l.toNat < 2 ^ (p.width - 8) ∧
      (foldByte t c b).1 = advance (t ^^^ l) ∧ (foldByte t c b).2.toNat = (c.toNat + 8) % (p.width - 8) ∧
      CursorLegal p (foldByte t c b).2

/-- 40_primitives.md section 2, which the spec derives from R84: the cursor for the `n`-th byte of a session is `8 · (n mod (TAGW − 1))`, whatever the key and the bytes. -/
def Obligations.CursorCountsTheBytesFolded : Prop :=
  ∀ (p : Profile) (k : BitVec p.width) (plain : List Byte),
    (plain.foldl absorb (initSession k)).cur.toNat = 8 * (plain.length % (p.width / 8 - 1))

/-- 20_memory.md section 2: the tag's bytes, least significant first, and the inverse: `TAGW` bytes, byte `k` the bits `8k+7 : 8k`, each way
round gives back what went in. -/
def Obligations.TagBytesAreLittleEndian : Prop :=
  ∀ p : Profile,
    (∀ t : BitVec p.width, (tagBytes t).length = p.width / 8 ∧
        (∀ (k : Nat) (h : k < (tagBytes t).length), ((tagBytes t)[k]).toNat = t.toNat / 2 ^ (8 * k) % 256) ∧
        tagFromBytes p (tagBytes t) = t) ∧
      ∀ bs : List Byte, bs.length = p.width / 8 → tagBytes (tagFromBytes p bs) = bs

/-! ### The session commands -/

/-- R90, R95: `INIT` in either phase opens a fresh session; the seed is never 0, and the tag is 0 only for
`KEY = IPAD_C`. -/
def Obligations.InitOpensAFreshSession : Prop :=
  ∀ s : State, ∃ seed tag : BitVec s.profile.width,
    exec .init s = .next { s with
      engine := { s.engine with
        session := { seed := seed, tag := tag, ipad := s.engine.key ^^^ s.profile.ipadC,
                     opad := s.engine.key ^^^ s.profile.opadC, cur := 0#6 }
        phase := .opened, err := .ok, valid := false, short := false } } ∧
    seed.toNat = (if s.engine.key.toNat ≤ 1 then 1 else s.engine.key.toNat) ∧ seed ≠ 0#_ ∧
    tag = advance (s.engine.key ^^^ s.profile.ipadC) ∧ (tag = 0#_ ↔ s.engine.key = s.profile.ipadC)

/-- R91, R96: `ENCB` with no session open raises `E_SEQ`; in an open one it advances the seed, takes its low byte as mask,
folds the plain byte, mixes the new tag into the seed and returns the cipher byte. -/
def Obligations.EncbEncryptsOneByte : Prop :=
  ∀ (s : State) (d : Byte),
    (s.engine.phase = .idle → exec (.encb d) s = .next (faulted .seq s)) ∧
      (s.engine.phase = .opened → ∀ seed tag : BitVec s.profile.width,
        seed = advance s.engine.session.seed →
        tag = advance (s.engine.session.tag ^^^ (d.setWidth s.profile.width <<< s.engine.session.cur.toNat)) →
        exec (.encb d) s = .next { s with
          engine := { s.engine with
            session := { s.engine.session with
              seed := seed ^^^ tag
              tag := tag
              cur := BitVec.ofNat 6 ((s.engine.session.cur.toNat + 8) % (s.profile.width - 8)) }
            dout := d ^^^ seed.setWidth 8, err := .ok, valid := false, short := false } })

/-- R92, R97: `DECB` with no session open raises `E_SEQ`; in an open one it goes as `ENCB` does, but folds the recovered
plain byte and returns it. -/
def Obligations.DecbDecryptsOneByte : Prop :=
  ∀ (s : State) (d : Byte),
    (s.engine.phase = .idle → exec (.decb d) s = .next (faulted .seq s)) ∧
      (s.engine.phase = .opened → ∀ (seed tag : BitVec s.profile.width) (plain : Byte),
        seed = advance s.engine.session.seed → plain = d ^^^ seed.setWidth 8 →
        tag = advance (s.engine.session.tag ^^^ (plain.setWidth s.profile.width <<< s.engine.session.cur.toNat)) →
        exec (.decb d) s = .next { s with
          engine := { s.engine with
            session := { s.engine.session with
              seed := seed ^^^ tag
              tag := tag
              cur := BitVec.ofNat 6 ((s.engine.session.cur.toNat + 8) % (s.profile.width - 8)) }
            dout := plain, err := .ok, valid := false, short := false } })

/-- R93, R94, R98: `FINAL` with no session open raises `E_SEQ`; in an open one it latches `advance(TAG ^ OPAD)` into
`TAGOUT`, zeroes the session registers and closes the session. -/
def Obligations.FinalLatchesTheTagAndCloses : Prop :=
  ∀ s : State,
    (s.engine.phase = .idle → exec .final s = .next (faulted .seq s)) ∧
      (s.engine.phase = .opened → exec .final s = .next { s with
        engine := closed false false (advance (s.engine.session.tag ^^^ s.engine.session.opad)) s.engine })

/-- 41_session.md section 1, which the spec derives from R91 and R92: on a copy of the state, `decryptByte(encryptByte(p))` returns `p` and leaves the copy in the same state. -/
def Obligations.DecryptByteUndoesEncryptByte : Prop :=
  ∀ (p : Profile) (ss : Session p) (plain : Byte),
    decryptByte ss (encryptByte ss plain).2 = ((encryptByte ss plain).1, plain)

/-- 41_session.md section 3, which the spec derives from R90 to R93: for every key and every byte sequence, `INIT; ENCB…; FINAL` then `INIT; DECB…; FINAL` on the cipher bytes give
back the bytes and the same tag, and the session registers agree (after every step: take the prefixes). -/
def Obligations.ByteSessionRoundTrip : Prop :=
  ∀ (s : State) (bs : List Byte), ∃ (e₀ e₁ e₂ f₁ f₂ : Engine s.profile) (cs : List Byte),
    exec .init s = .next { s with engine := e₀ } ∧
      runBytes .encb bs { s with engine := e₀ } = some ({ s with engine := e₁ }, cs) ∧
      exec .final { s with engine := e₁ } = .next { s with engine := f₁ } ∧
      runBytes .decb cs { s with engine := e₀ } = some ({ s with engine := e₂ }, bs) ∧
      exec .final { s with engine := e₂ } = .next { s with engine := f₂ } ∧
      e₂.session = e₁.session ∧ f₂.tagout = f₁.tagout

/-- 41_session.md section 3, derived there from R91 and R92: with a zero seed the byte passes through unchanged and the seed becomes the tag; it is no fault. -/
def Obligations.ZeroSeedPassesTheByteThrough : Prop :=
  ∀ (s : State) (d : Byte), s.engine.phase = .opened → s.engine.session.seed = 0#_ →
    ∀ i ∈ [Instr.encb d, Instr.decb d], ∃ e : Engine s.profile, exec i s = .next { s with engine := e } ∧
      e.dout = d ∧ e.session.tag = (foldByte s.engine.session.tag s.engine.session.cur d).1 ∧
      e.session.seed = e.session.tag ∧ e.err = .ok ∧ e.eflag = s.engine.eflag ∧ e.phase = .opened

/-! ### The controller commands: guards -/

/-- R155: the four controller commands raise `E_SIZE` when `LEN < IVLEN + TAGW`, whatever the regions are (R157). -/
def Obligations.TooSmallFrameRaisesESize : Prop :=
  ∀ s : State, s.engine.len.toNat < s.engine.ivlen.toNat + s.profile.width / 8 →
    ∀ i ∈ [Instr.encs, .decs, .encm, .decm], exec i s = .next (faulted .size s)

/-- R156: after the size guard, a region that fails `RegionOK` raises `E_BUS`: of `ENCS` the IV, of `ENCM` the IV, the
payload or the frame, of `DECM` the frame or the payload; `DECS` cannot raise it; a region of length 0 never fails. -/
def Obligations.BadRegionRaisesEBus : Prop :=
  ∀ s : State, FrameFits s →
    (¬ RegionOK s.mapped s.engine.ivp s.engine.ivlen.toNat → exec .encs s = .next (faulted .bus s)) ∧
      (¬ (RegionOK s.mapped s.engine.ivp s.engine.ivlen.toNat ∧ RegionOK s.mapped s.engine.src (payloadOf s) ∧
          RegionOK s.mapped s.engine.dst s.engine.len.toNat) → exec .encm s = .next (faulted .bus s)) ∧
      (¬ (RegionOK s.mapped s.engine.src s.engine.len.toNat ∧ RegionOK s.mapped s.engine.dst (payloadOf s)) →
        exec .decm s = .next (faulted .bus s)) ∧
      (∃ t, exec .decs s = .next t ∧ t.engine.err = .ok) ∧ ∀ base, RegionOK s.mapped base 0

/-! ### The controller commands: what they do -/

/-- R114: `ENCS` appends the frame of the IV at `IVP` and of the payload the source holds, up to `P` bytes, leaves the rest
of the source, and records a short read. Too small a frame raises `E_SIZE`, then a bad IV region `E_BUS`. -/
def Obligations.EncsAppendsTheFrame : Prop :=
  (∀ s : State, ¬ FrameFits s → exec .encs s = .next (faulted .size s)) ∧
  (∀ s : State, FrameFits s → ¬ RegionOK s.mapped s.engine.ivp s.engine.ivlen.toNat →
    exec .encs s = .next (faulted .bus s)) ∧
  ∀ s : State, FrameFits s → RegionOK s.mapped s.engine.ivp s.engine.ivlen.toNat →
    exec .encs s = .next { s with
      engine := closed false (decide (s.source.length < payloadOf s))
        (tagOf s.engine.key (ivBytes s ++ s.source.take (payloadOf s))) s.engine
      source := s.source.drop (payloadOf s)
      sink := s.sink ++ frameOf s.engine.key (ivBytes s) (s.source.take (payloadOf s)) }

/-- R115: `DECS` decrypts up to `IVLEN + P` source bytes, appends all but the IV, takes the next `TAGW` bytes as the
received tag; `VALID` is 1 exactly if none was missing and that tag equals the computed one, which is latched. Too small a
frame raises `E_SIZE`. -/
def Obligations.DecsAppendsThePayload : Prop :=
  (∀ s : State, ¬ FrameFits s → exec .decs s = .next (faulted .size s)) ∧
  ∀ s : State, FrameFits s →
    ∀ body rx : List Byte,
      body = s.source.take (s.engine.ivlen.toNat + payloadOf s) →
      rx = (s.source.drop (s.engine.ivlen.toNat + payloadOf s)).take (s.profile.width / 8) →
      exec .decs s = .next { s with
        engine := closed
          (decide (s.engine.len.toNat ≤ s.source.length ∧ tagFromBytes s.profile rx = tagOfCipher s.engine.key body))
          (decide (s.source.length < s.engine.len.toNat)) (tagOfCipher s.engine.key body) s.engine
        source := s.source.drop s.engine.len.toNat
        sink := s.sink ++ (plainOf s.engine.key body).drop s.engine.ivlen.toNat }

/-- R116: `ENCM` reads, encrypts and writes byte after byte, the IV and then the payload, each read seeing the writes
before it, whatever the overlap; then it writes the tag. Too small a frame raises `E_SIZE`, then a bad region `E_BUS`. -/
def Obligations.EncmGoesByteByByte : Prop :=
  (∀ s : State, ¬ FrameFits s → exec .encm s = .next (faulted .size s)) ∧
  (∀ s : State, FrameFits s →
    ¬ (RegionOK s.mapped s.engine.ivp s.engine.ivlen.toNat ∧ RegionOK s.mapped s.engine.src (payloadOf s) ∧
      RegionOK s.mapped s.engine.dst s.engine.len.toNat) → exec .encm s = .next (faulted .bus s)) ∧
  ∀ s : State, FrameFits s →
    RegionOK s.mapped s.engine.ivp s.engine.ivlen.toNat → RegionOK s.mapped s.engine.src (payloadOf s) →
    RegionOK s.mapped s.engine.dst s.engine.len.toNat →
    ∃ (ss : Nat → Session s.profile) (m : Nat → Memory),
      ss 0 = initSession s.engine.key ∧ m 0 = s.mem ∧
      (∀ i < s.engine.ivlen.toNat + payloadOf s, ∀ b : Byte,
        b = Memory.read (m i) (if i < s.engine.ivlen.toNat then byteAddr s.engine.ivp i
          else byteAddr s.engine.src (i - s.engine.ivlen.toNat)) →
        ss (i + 1) = (encryptByte (ss i) b).1 ∧
          m (i + 1) = Memory.write (m i) (byteAddr s.engine.dst i) (encryptByte (ss i) b).2) ∧
      ∀ t : BitVec s.profile.width, t = finalizeTag (ss (s.engine.ivlen.toNat + payloadOf s)) →
        exec .encm s = .next { s with
          engine := closed false false t s.engine
          mem := Memory.writeBytes (m (s.engine.ivlen.toNat + payloadOf s)) s.engine.dst
            (s.engine.ivlen.toNat + payloadOf s) (tagBytes t) }

/-- R117: `DECM` reads and decrypts byte after byte, dropping the IV and writing the payload, each read seeing the writes
before it, whatever the overlap; then it reads the tag and compares. Too small a frame raises `E_SIZE`, then a bad region
`E_BUS`. -/
def Obligations.DecmGoesByteByByte : Prop :=
  (∀ s : State, ¬ FrameFits s → exec .decm s = .next (faulted .size s)) ∧
  (∀ s : State, FrameFits s →
    ¬ (RegionOK s.mapped s.engine.src s.engine.len.toNat ∧ RegionOK s.mapped s.engine.dst (payloadOf s)) →
    exec .decm s = .next (faulted .bus s)) ∧
  ∀ s : State, FrameFits s →
    RegionOK s.mapped s.engine.src s.engine.len.toNat → RegionOK s.mapped s.engine.dst (payloadOf s) →
    ∃ (ss : Nat → Session s.profile) (m : Nat → Memory),
      ss 0 = initSession s.engine.key ∧ m 0 = s.mem ∧
      (∀ i < s.engine.ivlen.toNat + payloadOf s, ∀ c : Byte, c = Memory.read (m i) (byteAddr s.engine.src i) →
        ss (i + 1) = (decryptByte (ss i) c).1 ∧
          m (i + 1) = if i < s.engine.ivlen.toNat then m i
            else Memory.write (m i) (byteAddr s.engine.dst (i - s.engine.ivlen.toNat)) (decryptByte (ss i) c).2) ∧
      ∀ (m' : Memory) (t rx : BitVec s.profile.width), m' = m (s.engine.ivlen.toNat + payloadOf s) →
        t = finalizeTag (ss (s.engine.ivlen.toNat + payloadOf s)) →
        rx = tagFromBytes s.profile
          (memBytes m' (byteAddr s.engine.src (s.engine.ivlen.toNat + payloadOf s)) (s.profile.width / 8)) →
        exec .decm s = .next { s with engine := closed (decide (rx = t)) false t s.engine, mem := m' }

/-- 42_datapath.md section 3, "exactly `LEN` bytes of `Mem` are written": with any overlap, `ENCM` completes, closes the session, leaves every other register and the ports alone, writes no
byte outside `DST … DST+LEN−1`, and ends the frame with the tag it latches. -/
def Obligations.EncmWritesOnlyItsFrame : Prop :=
  ∀ s : State, FrameFits s →
    RegionOK s.mapped s.engine.ivp s.engine.ivlen.toNat → RegionOK s.mapped s.engine.src (payloadOf s) →
    RegionOK s.mapped s.engine.dst s.engine.len.toNat →
    ∃ (t : BitVec s.profile.width) (m : Memory),
      exec .encm s = .next { s with engine := closed false false t s.engine, mem := m } ∧
        (∀ a, ¬ InRegion s.engine.dst s.engine.len.toNat a → Memory.read m a = Memory.read s.mem a) ∧
        memBytes m (byteAddr s.engine.dst (s.engine.ivlen.toNat + payloadOf s)) (s.profile.width / 8) = tagBytes t

/-- 42_datapath.md section 3, "exactly `P` bytes of `Mem` are written": with any overlap, `DECM` completes, closes the session, leaves every other register and the ports alone, and
writes no byte outside `DST … DST+P−1`. -/
def Obligations.DecmWritesOnlyThePayload : Prop :=
  ∀ s : State, FrameFits s →
    RegionOK s.mapped s.engine.src s.engine.len.toNat → RegionOK s.mapped s.engine.dst (payloadOf s) →
    ∃ (v : Bool) (t : BitVec s.profile.width) (m : Memory),
      exec .decm s = .next { s with engine := closed v false t s.engine, mem := m } ∧
        ∀ a, ¬ InRegion s.engine.dst (payloadOf s) a → Memory.read m a = Memory.read s.mem a

/-- 42_datapath.md sections 1 and 3: where the frame region is apart from the IV and the payload, `ENCM` writes exactly the frame of the bytes
that stood there. -/
def Obligations.EncmWritesTheFrame : Prop :=
  ∀ s : State, FrameFits s →
    RegionOK s.mapped s.engine.ivp s.engine.ivlen.toNat → RegionOK s.mapped s.engine.src (payloadOf s) →
    RegionOK s.mapped s.engine.dst s.engine.len.toNat →
    RegionsApart s.engine.dst s.engine.len.toNat s.engine.ivp s.engine.ivlen.toNat →
    RegionsApart s.engine.dst s.engine.len.toNat s.engine.src (payloadOf s) →
    ∃ m : Memory,
      exec .encm s = .next { s with
        engine := closed false false (tagOf s.engine.key (ivBytes s ++ payloadBytes s)) s.engine
        mem := m } ∧
      memBytes m s.engine.dst s.engine.len.toNat = frameOf s.engine.key (ivBytes s) (payloadBytes s) ∧
      ∀ a, ¬ InRegion s.engine.dst s.engine.len.toNat a → Memory.read m a = Memory.read s.mem a

/-- 20_memory.md section 7 (b), which the spec derives from R116: `ENCM` in place without an IV is safe: it writes the frame of the payload that stood there. -/
def Obligations.EncmInPlaceWithoutIvIsSafe : Prop :=
  ∀ s : State, FrameFits s → s.engine.ivlen = 0#32 → s.engine.dst = s.engine.src →
    RegionOK s.mapped s.engine.dst s.engine.len.toNat →
    ∃ m : Memory,
      exec .encm s = .next { s with
        engine := closed false false (tagOf s.engine.key (payloadBytes s)) s.engine
        mem := m } ∧
      memBytes m s.engine.dst s.engine.len.toNat = frameOf s.engine.key [] (payloadBytes s) ∧
      ∀ a, ¬ InRegion s.engine.dst s.engine.len.toNat a → Memory.read m a = Memory.read s.mem a

/-- 20_memory.md section 7 (a), which the spec derives from R117: `DECM` with the output at or below the ciphertext, in place among them, or apart from the frame, decrypts
the frame that stood there before it and compares with the tag that stood there. -/
def Obligations.DecmDecryptsTheFrameThatStoodThere : Prop :=
  ∀ s : State, FrameFits s →
    RegionOK s.mapped s.engine.src s.engine.len.toNat → RegionOK s.mapped s.engine.dst (payloadOf s) →
    (s.engine.dst.toNat ≤ s.engine.src.toNat + s.engine.ivlen.toNat ∨
      RegionsApart s.engine.dst (payloadOf s) s.engine.src s.engine.len.toNat) →
    ∀ body rx : List Byte,
      body = memBytes s.mem s.engine.src (s.engine.ivlen.toNat + payloadOf s) →
      rx = memBytes s.mem (byteAddr s.engine.src (s.engine.ivlen.toNat + payloadOf s)) (s.profile.width / 8) →
      ∃ m : Memory,
        exec .decm s = .next { s with
          engine := closed (decide (tagFromBytes s.profile rx = tagOfCipher s.engine.key body)) false
            (tagOfCipher s.engine.key body) s.engine
          mem := m } ∧
        memBytes m s.engine.dst (payloadOf s) = (plainOf s.engine.key body).drop s.engine.ivlen.toNat ∧
        ∀ a, ¬ InRegion s.engine.dst (payloadOf s) a → Memory.read m a = Memory.read s.mem a

/-! ### The controller commands: streams against buffers, round trips, outcomes -/

/-- 42_datapath.md section 4, "compute the same function": given the same payload on the source and in memory, `ENCS` appends exactly the bytes `ENCM` writes, and both leave
the same registers. -/
def Obligations.StreamAndBufferEncryptionAgree : Prop :=
  ∀ s : State, FrameFits s →
    RegionOK s.mapped s.engine.ivp s.engine.ivlen.toNat → RegionOK s.mapped s.engine.src (payloadOf s) →
    RegionOK s.mapped s.engine.dst s.engine.len.toNat →
    RegionsApart s.engine.dst s.engine.len.toNat s.engine.ivp s.engine.ivlen.toNat →
    RegionsApart s.engine.dst s.engine.len.toNat s.engine.src (payloadOf s) →
    ∀ rest : List Byte, s.source = payloadBytes s ++ rest →
    ∃ (e : Engine s.profile) (m : Memory),
      exec .encm s = .next { s with engine := e, mem := m } ∧
        exec .encs s = .next { s with
          engine := e
          source := rest
          sink := s.sink ++ memBytes m s.engine.dst s.engine.len.toNat }

/-- 42_datapath.md section 4, "compute the same function": given the same frame on the source and in memory, `DECS` appends exactly the bytes `DECM` writes, and both leave
the same registers, `VALID` and `TAGOUT` among them. -/
def Obligations.StreamAndBufferDecryptionAgree : Prop :=
  ∀ s : State, FrameFits s →
    RegionOK s.mapped s.engine.src s.engine.len.toNat → RegionOK s.mapped s.engine.dst (payloadOf s) →
    (s.engine.dst.toNat ≤ s.engine.src.toNat + s.engine.ivlen.toNat ∨
      RegionsApart s.engine.dst (payloadOf s) s.engine.src s.engine.len.toNat) →
    ∀ rest : List Byte, s.source = memBytes s.mem s.engine.src s.engine.len.toNat ++ rest →
    ∃ (e : Engine s.profile) (m : Memory),
      exec .decm s = .next { s with engine := e, mem := m } ∧
        exec .decs s = .next { s with
          engine := e
          source := rest
          sink := s.sink ++ memBytes m s.engine.dst (payloadOf s) }

/-- 42_datapath.md section 4, the frame-level round trip: the frame `ENCM` makes, given to `DECM` with the same `KEY`, `IVLEN` and `LEN`, yields the payload and
`VALID = 1`, for every key, IV and payload. -/
def Obligations.BufferRoundTrip : Prop :=
  ∀ (s : State) (out : Addr), FrameFits s →
    RegionOK s.mapped s.engine.ivp s.engine.ivlen.toNat → RegionOK s.mapped s.engine.src (payloadOf s) →
    RegionOK s.mapped s.engine.dst s.engine.len.toNat →
    RegionsApart s.engine.dst s.engine.len.toNat s.engine.ivp s.engine.ivlen.toNat →
    RegionsApart s.engine.dst s.engine.len.toNat s.engine.src (payloadOf s) →
    RegionOK s.mapped out (payloadOf s) →
    (out.toNat ≤ s.engine.dst.toNat + s.engine.ivlen.toNat ∨
      RegionsApart out (payloadOf s) s.engine.dst s.engine.len.toNat) →
    ∃ (e e' : Engine s.profile) (m m' : Memory),
      exec .encm s = .next { s with engine := e, mem := m } ∧
        exec .decm { s with engine := { e with src := e.dst, dst := out }, mem := m } =
          .next { s with engine := e', mem := m' } ∧
        e'.valid = true ∧ e'.err = .ok ∧ e'.tagout = e.tagout ∧ memBytes m' out (payloadOf s) = payloadBytes s

/-- 42_datapath.md section 4, the frame-level round trip: the frame `ENCS` appends without a short read, given to `DECS` with the same `KEY`, `IVLEN` and `LEN`, yields the
payload and `VALID = 1`, whatever follows the frame on the source. -/
def Obligations.StreamRoundTrip : Prop :=
  ∀ (s : State) (extra : List Byte), FrameFits s → RegionOK s.mapped s.engine.ivp s.engine.ivlen.toNat →
    payloadOf s ≤ s.source.length →
    ∃ (e e' : Engine s.profile) (frame : List Byte),
      exec .encs s = .next { s with
        engine := e
        source := s.source.drop (payloadOf s)
        sink := s.sink ++ frame } ∧
      frame.length = s.engine.len.toNat ∧
      exec .decs { s with engine := e, source := frame ++ extra } = .next { s with
        engine := e'
        source := extra
        sink := s.sink ++ s.source.take (payloadOf s) } ∧
      e'.valid = true ∧ e'.short = false ∧ e'.err = .ok ∧ e'.tagout = e.tagout

/-- 42_datapath.md section 4, "the IV length is not authenticated": decrypting with a smaller `IVLEN` than the frame was made
with changes nothing but that the extra recovered IV bytes are written out first: the registers, `VALID` among them, are the
same. Of `DECS` always; of `DECM` where its larger output overlaps the frame safely or not at all. -/
def Obligations.IvLengthIsNotAuthenticated : Prop :=
  ∀ (s u : State) (ivlen : Word32), FrameFits s → ivlen.toNat ≤ s.engine.ivlen.toNat →
    u = { s with engine := { s.engine with ivlen := ivlen } } →
    (∃ (e : Engine s.profile) (plain source : List Byte),
      exec .decs s = .next { s with
        engine := e
        source := source
        sink := s.sink ++ plain.drop s.engine.ivlen.toNat } ∧
      exec .decs u = .next { s with
        engine := { e with ivlen := ivlen }
        source := source
        sink := s.sink ++ plain.drop ivlen.toNat }) ∧
      (RegionOK s.mapped s.engine.src s.engine.len.toNat → RegionOK s.mapped s.engine.dst (payloadOf u) →
        (s.engine.dst.toNat ≤ s.engine.src.toNat + ivlen.toNat ∨
          RegionsApart s.engine.dst (payloadOf u) s.engine.src s.engine.len.toNat) →
        ∃ (e : Engine s.profile) (plain : List Byte) (m m' : Memory),
          exec .decm s = .next { s with engine := e, mem := m } ∧
          exec .decm u = .next { s with engine := { e with ivlen := ivlen }, mem := m' } ∧
          memBytes m s.engine.dst (payloadOf s) = plain.drop s.engine.ivlen.toNat ∧
          memBytes m' s.engine.dst (payloadOf u) = plain.drop ivlen.toNat ∧
          ∀ a, ¬ InRegion s.engine.dst (payloadOf u) a →
            Memory.read m a = Memory.read s.mem a ∧ Memory.read m' a = Memory.read s.mem a)

/-- 42_datapath.md sections 1 and 4: of all the tags a frame could carry exactly one is accepted by `DECS`, and which tag it carries changes
nothing but `VALID`: the plain bytes are written whatever the outcome, and a mismatch is no fault. -/
def Obligations.WrongTagChangesOnlyValid : Prop :=
  ∀ (s : State) (body rest : List Byte), FrameFits s →
    body.length = s.engine.ivlen.toNat + payloadOf s →
    ∃ (accept : List Byte) (e : Engine s.profile) (plain : List Byte),
      accept.length = s.profile.width / 8 ∧ plain.length = payloadOf s ∧ e.err = .ok ∧ e.eflag = s.engine.eflag ∧
      ∀ tag : List Byte, tag.length = s.profile.width / 8 →
        exec .decs { s with source := body ++ tag ++ rest } = .next { s with
          engine := { e with valid := decide (tag = accept) }
          source := rest
          sink := s.sink ++ plain }

/-- R159: a stream command whose source is exhausted early completes with `SHORT = 1`, `VALID = 0`, `ERR = 0` and
`EFLAG` as it was; `ENCS` still makes a frame, of the shorter length. -/
def Obligations.ShortReadIsNoFault : Prop :=
  ∀ s : State, FrameFits s →
    (RegionOK s.mapped s.engine.ivp s.engine.ivlen.toNat → s.source.length < payloadOf s →
      ∃ (e : Engine s.profile) (frame : List Byte),
        exec .encs s = .next { s with engine := e, source := [], sink := s.sink ++ frame } ∧
          frame.length = s.engine.ivlen.toNat + s.source.length + s.profile.width / 8 ∧
          e.short = true ∧ e.valid = false ∧ e.err = .ok ∧ e.eflag = s.engine.eflag ∧ e.phase = .idle) ∧
      (s.source.length < s.engine.len.toNat →
        ∃ (e : Engine s.profile) (plain : List Byte),
          exec .decs s = .next { s with engine := e, source := [], sink := s.sink ++ plain } ∧
            e.short = true ∧ e.valid = false ∧ e.err = .ok ∧ e.eflag = s.engine.eflag ∧ e.phase = .idle)

/-! ### Whole-machine rules -/

/-- R151: every command runs to a next state; a command other than `NOP` either completes with `ERR = 0` or leaves the
machine as it was with the four `STATUS` fields rewritten. -/
def Obligations.FaultsRewriteStatusOnly : Prop :=
  ∀ (i : Instr) (s : State), ∃ t, exec i s = .next t ∧
    (i ≠ .nop → t.engine.err = .ok ∨ ∃ f, f ≠ .ok ∧ t = faulted f s)

/-- R154, R155 and the table of faults: which command reports which fault and when: `E_ILL` never by a legal command, `E_SEQ` by the session
commands while idle, `E_SIZE` and, after it, `E_BUS` by the controller commands. -/
def Obligations.EachFaultHasItsCause : Prop :=
  ∀ (i : Instr) (s t : State), i ≠ .nop → exec i s = .next t →
    t.engine.err ≠ .ill ∧
      (t.engine.err = .seq ↔ s.engine.phase = .idle ∧ (i = .final ∨ ∃ d, i = .encb d ∨ i = .decb d)) ∧
      (t.engine.err = .size ↔ i ∈ [Instr.encs, .decs, .encm, .decm] ∧ ¬ FrameFits s) ∧
      (t.engine.err = .bus ↔ FrameFits s ∧
        ((i = .encs ∧ ¬ RegionOK s.mapped s.engine.ivp s.engine.ivlen.toNat) ∨
          (i = .encm ∧ ¬ (RegionOK s.mapped s.engine.ivp s.engine.ivlen.toNat ∧
            RegionOK s.mapped s.engine.src (payloadOf s) ∧ RegionOK s.mapped s.engine.dst s.engine.len.toNat)) ∨
          (i = .decm ∧ ¬ (RegionOK s.mapped s.engine.src s.engine.len.toNat ∧
            RegionOK s.mapped s.engine.dst (payloadOf s)))))

/-- 10_state.md section 8: the columns of the register table: `NOP` writes nothing; a command other than `RST` writes no
operand register, `IPAD`, `OPAD` and `PHASE` not in `ENCB` and `DECB`, `DOUT` only in `ENCB` and `DECB`, `TAGOUT` only in
`FINAL` and the controller commands, of `STATUS` only the result fields where it completes, memory only in the buffer
commands, the ports only in the stream commands. A command that faults writes no session register and no `PHASE` either. -/
def Obligations.CommandsWriteOnlyTheirColumns : Prop :=
  ∀ (i : Instr) (s t : State), i ≠ .rst → exec i s = .next t →
    ∃ e : Engine s.profile,
      t = { s with engine := e, mem := t.mem, source := t.source, sink := t.sink } ∧
        (i = .nop → e = s.engine) ∧
        e.key = s.engine.key ∧ e.len = s.engine.len ∧ e.ivlen = s.engine.ivlen ∧ e.src = s.engine.src ∧
        e.dst = s.engine.dst ∧ e.ivp = s.engine.ivp ∧
        ((∃ d, i = .encb d ∨ i = .decb d) →
          e.session.ipad = s.engine.session.ipad ∧ e.session.opad = s.engine.session.opad ∧ e.phase = s.engine.phase) ∧
        (e.err ≠ .ok → e.session = s.engine.session ∧ e.phase = s.engine.phase) ∧
        (e.err = .ok → e.eflag = s.engine.eflag) ∧
        ((∀ d, i ≠ .encb d ∧ i ≠ .decb d) → e.dout = s.engine.dout) ∧
        (i ∉ [Instr.final, .encs, .decs, .encm, .decm] → e.tagout = s.engine.tagout) ∧
        (i ∉ [Instr.encm, .decm] → t.mem = s.mem) ∧
        (i ∉ [Instr.encs, .decs] → t.source = s.source ∧ t.sink = s.sink)

/-- 10_state.md section 3: `EFLAG` is sticky: a step that clears it is hardware reset or the command `RST`. -/
def Obligations.OnlyResetClearsEflag : Prop :=
  ∀ s t : State, step s = .next t → s.engine.eflag = true → t.engine.eflag = false →
    ∃ rest, s.inputs = .hardReset :: rest ∨ ∃ c, s.inputs = .hostWrite 0x00#8 c :: rest ∧ decode c = .ok .rst

/-- 41_session.md section 1, derived there: no command reads a session register while idle: changing the session registers of an idle engine changes nothing
but session registers in the next state. -/
def Obligations.IdleSessionRegistersAreNeverRead : Prop :=
  ∀ (i : Instr) (s t : State) (ss : Session s.profile), s.engine.phase = .idle → exec i s = .next t →
    ∃ ss' : Session t.profile,
      exec i { s with engine := { s.engine with session := ss } } =
        .next { t with engine := { t.engine with session := ss' } }

/-- 41_session.md section 2, 42_datapath.md section 1: `INIT`, and a controller command that completes, replace whatever session there was: the next state does not
depend on the session registers or on `PHASE`. -/
def Obligations.NewSessionForgetsTheOldOne : Prop :=
  ∀ (i : Instr) (s t : State) (ss : Session s.profile) (ph : Phase), i ∈ [Instr.init, .encs, .decs, .encm, .decm] →
    exec i s = .next t → t.engine.err = .ok →
    exec i { s with engine := { s.engine with session := ss, phase := ph } } = .next t

/-- Every step keeps the invariant: the memory's canonical form, a cursor of R21, zero session registers while idle, pads
from one key while open, a reported fault sticky, a valid tag received whole. -/
def Obligations.StepKeepsTheInvariant : Prop := ∀ s t : State, Inv s → step s = .next t → Inv t

/-- The state after reset meets the invariant, for every profile, platform and canonical memory, and so does the model's own
choice of them (log entries 1 to 4). -/
def Obligations.ResetMeetsTheInvariant : Prop :=
  (∀ (p : Profile) (mapped : List AddrRange) (mem : Memory) (source : List Byte),
    Memory.wf mem → Inv (State.resetWith p mapped mem source)) ∧ Inv State.reset
end

