-- ==== Sys2Proof/Laws/Memory.lean ====
section
/-! SUPPORT. What reading and writing bytes of memory do: a read after a write, the canonical form, and a sequence of
bytes written to a region (R41, R44). -/

namespace Sys2Proof.Machine

/-! ### One byte -/

theorem lookup_erase (m : Memory) (j k : Nat) :
    Memory.lookup (Memory.erase m j) k = if j = k then Memory.unlisted else Memory.lookup m k := by
  induction m with
  | nil => simp [Memory.erase, Memory.lookup]
  | cons c m ih =>
    simp only [Memory.erase] at ih
    by_cases hc : c.1 = j
    · by_cases hk : j = k <;> simp_all [Memory.erase, Memory.lookup]
    · by_cases hk : c.1 = k
      · have : j ≠ k := fun h => hc (hk.trans h.symm)
        simp_all [Memory.erase, Memory.lookup]
      · simp_all [Memory.erase, Memory.lookup]

theorem lookup_insert (m : Memory) (j k : Nat) (v : Byte) (hj : ∀ c ∈ m, c.1 ≠ j) :
    Memory.lookup (Memory.insert m j v) k = if j = k then v else Memory.lookup m k := by
  induction m with
  | nil => simp [Memory.insert, Memory.lookup]
  | cons c m ih =>
    have hc : c.1 ≠ j := hj c (by simp)
    have ih := ih fun d hd => hj d (by simp [hd])
    by_cases hlt : c.1 < j
    · by_cases hk : c.1 = k
      · have hkj : k < j := hk ▸ hlt
        simp [Memory.insert, Memory.lookup, hkj, hk, show j ≠ k by omega]
      · simp [Memory.insert, Memory.lookup, hlt, hk, ih]
    · simp [Memory.insert, Memory.lookup, hlt]

theorem erase_ne (m : Memory) (k : Nat) : ∀ c ∈ Memory.erase m k, c.1 ≠ k := by
  intro c hc
  simpa [Memory.erase] using (List.mem_filter.mp hc).2

/-- A write gives its own address the value written and leaves every other address alone, in every memory (R41). -/
theorem read_write (m : Memory) (a b : Addr) (v : Byte) :
    Memory.read (Memory.write m a v) b = if a = b then v else Memory.read m b := by
  have hab : a.toNat = b.toNat ↔ a = b := BitVec.toNat_inj
  unfold Memory.read Memory.write
  split
  · next hv => simp [lookup_erase, hab, hv]
  · simp only [lookup_insert _ _ _ _ (erase_ne m a.toNat), lookup_erase, hab]
    split <;> rfl

@[simp] theorem read_write_same (m : Memory) (a : Addr) (v : Byte) : Memory.read (Memory.write m a v) a = v := by
  simp [read_write]

theorem read_write_other (m : Memory) {a b : Addr} (v : Byte) (h : a ≠ b) :
    Memory.read (Memory.write m a v) b = Memory.read m b := by
  simp [read_write, h]

/-! ### The canonical form -/

theorem erase_wf {m : Memory} (h : Memory.wf m) (k : Nat) : Memory.wf (Memory.erase m k) :=
  ⟨h.1.filter _, fun c hc => h.2 c (List.mem_filter.mp hc).1⟩

theorem mem_insert {m : Memory} {k : Nat} {v : Byte} {c : Host.Cell} (h : c ∈ Memory.insert m k v) :
    c = (k, v) ∨ c ∈ m := by
  induction m with
  | nil => simpa [Memory.insert] using h
  | cons d m ih =>
    unfold Memory.insert at h
    split at h
    · rcases List.mem_cons.mp h with h | h
      · simp [h]
      · rcases ih h with h | h <;> simp [h]
    · simpa using h

theorem insert_wf {m : Memory} (h : Memory.wf m) {k : Nat} {v : Byte} (hk : k < 2 ^ 32) (hv : v ≠ Memory.unlisted)
    (hne : ∀ c ∈ m, c.1 ≠ k) : Memory.wf (Memory.insert m k v) := by
  refine ⟨?_, fun c hc => ?_⟩
  · induction m with
    | nil => simp [Memory.insert]
    | cons d m ih =>
      have hm : Memory.wf m := ⟨h.1.of_cons, fun c hc => h.2 c (by simp [hc])⟩
      have hd := List.pairwise_cons.mp h.1
      have hdk : d.1 ≠ k := hne d (by simp)
      unfold Memory.insert
      split
      · next hlt =>
        refine List.pairwise_cons.mpr ⟨fun c hc => ?_, ih hm fun c hc => hne c (by simp [hc])⟩
        rcases mem_insert hc with rfl | hc
        · exact hlt
        · exact hd.1 c hc
      · next hlt =>
        refine List.pairwise_cons.mpr ⟨fun c hc => ?_, h.1⟩
        have hkd : k < d.1 := by omega
        rcases List.mem_cons.mp hc with rfl | hc
        · exact hkd
        · exact hkd.trans (hd.1 c hc)
  · rcases mem_insert hc with rfl | hc
    · exact ⟨hk, hv⟩
    · exact h.2 c hc

/-- A write keeps the canonical form. -/
theorem write_wf {m : Memory} (h : Memory.wf m) (a : Addr) (v : Byte) : Memory.wf (Memory.write m a v) := by
  unfold Memory.write
  split
  · exact erase_wf h _
  · next hv => exact insert_wf (erase_wf h _) a.isLt hv (erase_ne m _)

/-- Writing a sequence of bytes keeps the canonical form. -/
theorem writeBytes_wf (base : Addr) (bs : List Byte) :
    ∀ {m : Memory} (i : Nat), Memory.wf m → Memory.wf (Memory.writeBytes m base i bs) := by
  induction bs with
  | nil => exact fun _ h => h
  | cons b bs ih => exact fun i h => ih (i + 1) (write_wf h _ _)

/-! ### Byte addresses of a region -/

/-- Below the top of the address space the bytes of a region have different addresses. -/
theorem byteAddr_inj {base : Addr} {i j : Nat} (hi : base.toNat + i < 2 ^ 32) (hj : base.toNat + j < 2 ^ 32) :
    byteAddr base i = byteAddr base j ↔ i = j := by
  have hb := base.isLt
  constructor
  · intro h
    have := congrArg BitVec.toNat h
    simp only [byteAddr, BitVec.toNat_add, BitVec.toNat_ofNat] at this
    omega
  · rintro rfl; rfl

/-- Where a region does not run past the top, its byte `i` stands at address `base + i`. -/
theorem byteAddr_toNat {base : Addr} {i : Nat} (hi : base.toNat + i < 2 ^ 32) :
    (byteAddr base i).toNat = base.toNat + i := by
  simp only [byteAddr, BitVec.toNat_add, BitVec.toNat_ofNat]
  omega

/-- Byte `j` of the region that starts at byte `i` of a region. -/
@[simp] theorem byteAddr_byteAddr (base : Addr) (i j : Nat) : byteAddr (byteAddr base i) j = byteAddr base (i + j) := by
  simp [byteAddr, BitVec.ofNat_add, BitVec.add_assoc]

/-! ### A sequence of bytes -/

/-- Writing a sequence of bytes leaves every address outside them alone. -/
theorem read_writeBytes_outside (base a : Addr) (bs : List Byte) :
    ∀ (m : Memory) (i : Nat), (∀ j, i ≤ j → j < i + bs.length → byteAddr base j ≠ a) →
      Memory.read (Memory.writeBytes m base i bs) a = Memory.read m a := by
  induction bs with
  | nil => exact fun _ _ _ => rfl
  | cons b bs ih =>
    intro m i h
    rw [Memory.writeBytes, ih _ _ fun j hj hl => h j (by omega) (by simp only [List.length_cons]; omega)]
    exact read_write_other _ _ (h i le_rfl (by simp))

/-- Byte `i + k` of a region after a sequence of bytes is written from byte `i` is byte `k` of the sequence. -/
theorem read_writeBytes_inside (base : Addr) (bs : List Byte) :
    ∀ (m : Memory) (i k : Nat) (hk : k < bs.length), base.toNat + i + bs.length ≤ 2 ^ 32 →
      Memory.read (Memory.writeBytes m base i bs) (byteAddr base (i + k)) = bs[k] := by
  induction bs with
  | nil => simp
  | cons b bs ih =>
    intro m i k hk hb
    simp only [List.length_cons] at hk hb
    rw [Memory.writeBytes]
    cases k with
    | zero =>
      rw [read_writeBytes_outside]
      · simp
      · intro j hj hl
        rw [Ne, byteAddr_inj (by omega) (by omega)]
        omega
    | succ k =>
      have := ih (Memory.write m (byteAddr base i) b) (i + 1) k (by omega) (by omega)
      rwa [show i + 1 + k = i + (k + 1) by omega] at this

/-- Writing a sequence of bytes to the region that starts at byte `n` of a region. -/
theorem writeBytes_byteAddr (base : Addr) (n : Nat) (bs : List Byte) :
    ∀ (m : Memory) (i : Nat), Memory.writeBytes m (byteAddr base n) i bs = Memory.writeBytes m base (n + i) bs := by
  induction bs with
  | nil => exact fun _ _ => rfl
  | cons b bs ih => intro m i; simp only [Memory.writeBytes, ih, byteAddr_byteAddr, Nat.add_assoc]

/-- A sequence of bytes written in two parts. -/
theorem writeBytes_append (base : Addr) (bs cs : List Byte) :
    ∀ (m : Memory) (i : Nat), Memory.writeBytes m base i (bs ++ cs) =
      Memory.writeBytes (Memory.writeBytes m base i bs) base (i + bs.length) cs := by
  induction bs with
  | nil => exact fun _ _ => rfl
  | cons b bs ih =>
    intro m i
    simp only [List.cons_append, Memory.writeBytes, ih, List.length_cons, Nat.add_assoc, Nat.add_comm 1]

/-! ### The bytes of a region as a list -/

@[simp] theorem memBytes_length (m : Memory) (base : Addr) (n : Nat) : (memBytes m base n).length = n := by
  simp [memBytes]

@[simp] theorem memBytes_getElem (m : Memory) (base : Addr) (n i : Nat) (h : i < (memBytes m base n).length) :
    (memBytes m base n)[i] = Memory.read m (byteAddr base i) := by
  simp [memBytes]

theorem memBytes_zero (m : Memory) (base : Addr) : memBytes m base 0 = [] := rfl

theorem memBytes_succ (m : Memory) (base : Addr) (n : Nat) :
    memBytes m base (n + 1) = memBytes m base n ++ [Memory.read m (byteAddr base n)] := by
  simp [memBytes, List.range_succ]

theorem memBytes_cons (m : Memory) (base : Addr) (n : Nat) :
    memBytes m base (n + 1) = Memory.read m base :: memBytes m (byteAddr base 1) n := by
  refine List.ext_getElem (by simp) fun i h₁ h₂ => ?_
  cases i with
  | zero => simp [byteAddr]
  | succ i => simp [Nat.add_comm]

/-- A region of two parts. -/
theorem memBytes_append (m : Memory) (base : Addr) (n k : Nat) :
    memBytes m base (n + k) = memBytes m base n ++ memBytes m (byteAddr base n) k := by
  refine List.ext_getElem (by simp) fun i h₁ h₂ => ?_
  rcases Nat.lt_or_ge i n with h | h
  · simp [h]
  · simp [h, List.getElem_append_right]

/-- A region holds the sequence of bytes just written to it. -/
theorem memBytes_writeBytes (m : Memory) (base : Addr) (bs : List Byte) (h : base.toNat + bs.length ≤ 2 ^ 32) :
    memBytes (Memory.writeBytes m base 0 bs) base bs.length = bs := by
  refine List.ext_getElem (by simp) fun i h₁ h₂ => ?_
  simpa using read_writeBytes_inside base bs m 0 i h₂ (by omega)

/-- Two memories that agree on a region hold the same bytes there. -/
theorem memBytes_congr {m m' : Memory} {base : Addr} {n : Nat}
    (h : ∀ i, i < n → Memory.read m' (byteAddr base i) = Memory.read m (byteAddr base i)) :
    memBytes m' base n = memBytes m base n :=
  List.map_congr_left fun i hi => h i (List.mem_range.mp hi)

end Sys2Proof.Machine
end

