-- ==== Sys2Proof/Laws/State.lean ====
section
/-! SUPPORT. One lemma per field for each update of the engine's registers and of the state: what the field holds after it. -/

namespace Sys2Proof.Machine

variable {p : Profile}

/-! ### `complete` (R152) -/

@[simp] theorem complete_session (v sh : Bool) (e : Engine p) : (complete v sh e).session = e.session := rfl
@[simp] theorem complete_phase (v sh : Bool) (e : Engine p) : (complete v sh e).phase = e.phase := rfl
@[simp] theorem complete_key (v sh : Bool) (e : Engine p) : (complete v sh e).key = e.key := rfl
@[simp] theorem complete_len (v sh : Bool) (e : Engine p) : (complete v sh e).len = e.len := rfl
@[simp] theorem complete_ivlen (v sh : Bool) (e : Engine p) : (complete v sh e).ivlen = e.ivlen := rfl
@[simp] theorem complete_src (v sh : Bool) (e : Engine p) : (complete v sh e).src = e.src := rfl
@[simp] theorem complete_dst (v sh : Bool) (e : Engine p) : (complete v sh e).dst = e.dst := rfl
@[simp] theorem complete_ivp (v sh : Bool) (e : Engine p) : (complete v sh e).ivp = e.ivp := rfl
@[simp] theorem complete_dout (v sh : Bool) (e : Engine p) : (complete v sh e).dout = e.dout := rfl
@[simp] theorem complete_tagout (v sh : Bool) (e : Engine p) : (complete v sh e).tagout = e.tagout := rfl
@[simp] theorem complete_valid (v sh : Bool) (e : Engine p) : (complete v sh e).valid = v := rfl
@[simp] theorem complete_short (v sh : Bool) (e : Engine p) : (complete v sh e).short = sh := rfl
@[simp] theorem complete_eflag (v sh : Bool) (e : Engine p) : (complete v sh e).eflag = e.eflag := rfl
@[simp] theorem complete_err (v sh : Bool) (e : Engine p) : (complete v sh e).err = .ok := rfl

/-! ### `close` (R94) -/

@[simp] theorem close_session (t : BitVec p.width) (e : Engine p) : (close t e).session = Session.zero p := rfl
@[simp] theorem close_phase (t : BitVec p.width) (e : Engine p) : (close t e).phase = .idle := rfl
@[simp] theorem close_key (t : BitVec p.width) (e : Engine p) : (close t e).key = e.key := rfl
@[simp] theorem close_len (t : BitVec p.width) (e : Engine p) : (close t e).len = e.len := rfl
@[simp] theorem close_ivlen (t : BitVec p.width) (e : Engine p) : (close t e).ivlen = e.ivlen := rfl
@[simp] theorem close_src (t : BitVec p.width) (e : Engine p) : (close t e).src = e.src := rfl
@[simp] theorem close_dst (t : BitVec p.width) (e : Engine p) : (close t e).dst = e.dst := rfl
@[simp] theorem close_ivp (t : BitVec p.width) (e : Engine p) : (close t e).ivp = e.ivp := rfl
@[simp] theorem close_dout (t : BitVec p.width) (e : Engine p) : (close t e).dout = e.dout := rfl
@[simp] theorem close_tagout (t : BitVec p.width) (e : Engine p) : (close t e).tagout = t := rfl
@[simp] theorem close_valid (t : BitVec p.width) (e : Engine p) : (close t e).valid = e.valid := rfl
@[simp] theorem close_short (t : BitVec p.width) (e : Engine p) : (close t e).short = e.short := rfl
@[simp] theorem close_eflag (t : BitVec p.width) (e : Engine p) : (close t e).eflag = e.eflag := rfl
@[simp] theorem close_err (t : BitVec p.width) (e : Engine p) : (close t e).err = e.err := rfl

/-! ### `Session.zero` and `Engine.reset` (R31) -/

@[simp] theorem zero_seed : (Session.zero p).seed = 0#p.width := rfl
@[simp] theorem zero_tag : (Session.zero p).tag = 0#p.width := rfl
@[simp] theorem zero_ipad : (Session.zero p).ipad = 0#p.width := rfl
@[simp] theorem zero_opad : (Session.zero p).opad = 0#p.width := rfl
@[simp] theorem zero_cur : (Session.zero p).cur = 0#6 := rfl
@[simp] theorem reset_session : (Engine.reset p).session = Session.zero p := rfl
@[simp] theorem reset_phase : (Engine.reset p).phase = .idle := rfl
@[simp] theorem reset_key : (Engine.reset p).key = 0#p.width := rfl
@[simp] theorem reset_len : (Engine.reset p).len = 0#32 := rfl
@[simp] theorem reset_ivlen : (Engine.reset p).ivlen = 0#32 := rfl
@[simp] theorem reset_src : (Engine.reset p).src = 0#32 := rfl
@[simp] theorem reset_dst : (Engine.reset p).dst = 0#32 := rfl
@[simp] theorem reset_ivp : (Engine.reset p).ivp = 0#32 := rfl
@[simp] theorem reset_dout : (Engine.reset p).dout = 0x00#8 := rfl
@[simp] theorem reset_tagout : (Engine.reset p).tagout = 0#p.width := rfl
@[simp] theorem reset_valid : (Engine.reset p).valid = false := rfl
@[simp] theorem reset_short : (Engine.reset p).short = false := rfl
@[simp] theorem reset_eflag : (Engine.reset p).eflag = false := rfl
@[simp] theorem reset_err : (Engine.reset p).err = .ok := rfl

/-! ### `raise` (R151) -/

@[simp] theorem raise_engine_session (f : Err) (s : State) : (raise f s).engine.session = s.engine.session := rfl
@[simp] theorem raise_engine_phase (f : Err) (s : State) : (raise f s).engine.phase = s.engine.phase := rfl
@[simp] theorem raise_engine_key (f : Err) (s : State) : (raise f s).engine.key = s.engine.key := rfl
@[simp] theorem raise_engine_len (f : Err) (s : State) : (raise f s).engine.len = s.engine.len := rfl
@[simp] theorem raise_engine_ivlen (f : Err) (s : State) : (raise f s).engine.ivlen = s.engine.ivlen := rfl
@[simp] theorem raise_engine_src (f : Err) (s : State) : (raise f s).engine.src = s.engine.src := rfl
@[simp] theorem raise_engine_dst (f : Err) (s : State) : (raise f s).engine.dst = s.engine.dst := rfl
@[simp] theorem raise_engine_ivp (f : Err) (s : State) : (raise f s).engine.ivp = s.engine.ivp := rfl
@[simp] theorem raise_engine_dout (f : Err) (s : State) : (raise f s).engine.dout = s.engine.dout := rfl
@[simp] theorem raise_engine_tagout (f : Err) (s : State) : (raise f s).engine.tagout = s.engine.tagout := rfl
@[simp] theorem raise_engine_valid (f : Err) (s : State) : (raise f s).engine.valid = false := rfl
@[simp] theorem raise_engine_short (f : Err) (s : State) : (raise f s).engine.short = false := rfl
@[simp] theorem raise_engine_eflag (f : Err) (s : State) : (raise f s).engine.eflag = true := rfl
@[simp] theorem raise_engine_err (f : Err) (s : State) : (raise f s).engine.err = f := rfl
@[simp] theorem raise_profile (f : Err) (s : State) : (raise f s).profile = s.profile := rfl
@[simp] theorem raise_mem (f : Err) (s : State) : (raise f s).mem = s.mem := rfl
@[simp] theorem raise_mapped (f : Err) (s : State) : (raise f s).mapped = s.mapped := rfl
@[simp] theorem raise_source (f : Err) (s : State) : (raise f s).source = s.source := rfl
@[simp] theorem raise_sink (f : Err) (s : State) : (raise f s).sink = s.sink := rfl
@[simp] theorem raise_inputs (f : Err) (s : State) : (raise f s).inputs = s.inputs := rfl
@[simp] theorem raise_trace (f : Err) (s : State) : (raise f s).trace = s.trace := rfl

/-! ### `resetEngine` (R170) -/

@[simp] theorem resetEngine_profile (s : State) : (resetEngine s).profile = s.profile := rfl
@[simp] theorem resetEngine_engine (s : State) : (resetEngine s).engine = Engine.reset s.profile := rfl
@[simp] theorem resetEngine_mem (s : State) : (resetEngine s).mem = s.mem := rfl
@[simp] theorem resetEngine_mapped (s : State) : (resetEngine s).mapped = s.mapped := rfl
@[simp] theorem resetEngine_source (s : State) : (resetEngine s).source = s.source := rfl
@[simp] theorem resetEngine_sink (s : State) : (resetEngine s).sink = s.sink := rfl
@[simp] theorem resetEngine_inputs (s : State) : (resetEngine s).inputs = s.inputs := rfl
@[simp] theorem resetEngine_trace (s : State) : (resetEngine s).trace = s.trace := rfl

/-! ### `record` (R69) -/

@[simp] theorem record_profile (rw : Rw) (off : HostOffset) (v : Word32) (s : State) :
    (record rw off v s).profile = s.profile := rfl
@[simp] theorem record_engine (rw : Rw) (off : HostOffset) (v : Word32) (s : State) :
    (record rw off v s).engine = s.engine := rfl
@[simp] theorem record_mem (rw : Rw) (off : HostOffset) (v : Word32) (s : State) :
    (record rw off v s).mem = s.mem := rfl
@[simp] theorem record_mapped (rw : Rw) (off : HostOffset) (v : Word32) (s : State) :
    (record rw off v s).mapped = s.mapped := rfl
@[simp] theorem record_source (rw : Rw) (off : HostOffset) (v : Word32) (s : State) :
    (record rw off v s).source = s.source := rfl
@[simp] theorem record_sink (rw : Rw) (off : HostOffset) (v : Word32) (s : State) :
    (record rw off v s).sink = s.sink := rfl
@[simp] theorem record_inputs (rw : Rw) (off : HostOffset) (v : Word32) (s : State) :
    (record rw off v s).inputs = s.inputs := rfl
@[simp] theorem record_trace (rw : Rw) (off : HostOffset) (v : Word32) (s : State) :
    (record rw off v s).trace = s.trace ++ [⟨rw, off, v⟩] := rfl

/-! ### The session after a byte step (R91, R92) -/

@[simp] theorem absorb_seed (ss : Session p) (b : Byte) : (absorb ss b).seed = advance ss.seed ^^^ advance (ss.tag ^^^ lane p ss.cur b) := rfl
@[simp] theorem absorb_tag (ss : Session p) (b : Byte) : (absorb ss b).tag = advance (ss.tag ^^^ lane p ss.cur b) := rfl
@[simp] theorem absorb_ipad (ss : Session p) (b : Byte) : (absorb ss b).ipad = ss.ipad := rfl
@[simp] theorem absorb_opad (ss : Session p) (b : Byte) : (absorb ss b).opad = ss.opad := rfl
@[simp] theorem absorb_cur (ss : Session p) (b : Byte) : (absorb ss b).cur = nextCursor p ss.cur := rfl

end Sys2Proof.Machine
end

