-- ==== Sys2Proof/Laws/Datapath.lean ====
section
/-! SUPPORT. What each phase of a controller command does, in one equation: its session, bytes and ports in terms of the
lists of bytes it moves (R113–R117). -/

namespace Sys2Proof.Machine

variable {p : Profile}

/-! ### A session over a list of bytes -/

@[simp] theorem encryptBytes_nil (ss : Session p) : encryptBytes ss [] = (ss, []) := rfl

theorem encryptBytes_cons (ss : Session p) (b : Byte) (bs : List Byte) :
    encryptBytes ss (b :: bs) = ((encryptBytes (encryptByte ss b).1 bs).1,
      (encryptByte ss b).2 :: (encryptBytes (encryptByte ss b).1 bs).2) := rfl

theorem encryptBytes_append (bs cs : List Byte) :
    ∀ ss : Session p, encryptBytes ss (bs ++ cs) = ((encryptBytes (encryptBytes ss bs).1 cs).1,
      (encryptBytes ss bs).2 ++ (encryptBytes (encryptBytes ss bs).1 cs).2) := by
  induction bs with
  | nil => exact fun _ => rfl
  | cons b bs ih => intro ss; simp [encryptBytes_cons, ih]

@[simp] theorem encryptBytes_length (bs : List Byte) : ∀ ss : Session p, (encryptBytes ss bs).2.length = bs.length := by
  induction bs with
  | nil => exact fun _ => rfl
  | cons b bs ih => intro ss; simp [encryptBytes_cons, ih]

@[simp] theorem decryptBytes_nil (ss : Session p) : decryptBytes ss [] = (ss, []) := rfl

theorem decryptBytes_cons (ss : Session p) (c : Byte) (cs : List Byte) :
    decryptBytes ss (c :: cs) = ((decryptBytes (decryptByte ss c).1 cs).1,
      (decryptByte ss c).2 :: (decryptBytes (decryptByte ss c).1 cs).2) := rfl

theorem decryptBytes_append (bs cs : List Byte) :
    ∀ ss : Session p, decryptBytes ss (bs ++ cs) = ((decryptBytes (decryptBytes ss bs).1 cs).1,
      (decryptBytes ss bs).2 ++ (decryptBytes (decryptBytes ss bs).1 cs).2) := by
  induction bs with
  | nil => exact fun _ => rfl
  | cons b bs ih => intro ss; simp [decryptBytes_cons, ih]

@[simp] theorem decryptBytes_length (bs : List Byte) : ∀ ss : Session p, (decryptBytes ss bs).2.length = bs.length := by
  induction bs with
  | nil => exact fun _ => rfl
  | cons b bs ih => intro ss; simp [decryptBytes_cons, ih]

/-! ### The bytes of a tag -/

@[simp] theorem tagBytes_length (t : BitVec p.width) : (tagBytes t).length = p.tagw := by simp [tagBytes]

/-- The tag phase of `ENCS` appends the tag's bytes. -/
theorem sinkTag_eq (t : BitVec p.width) (sink : List Byte) : sinkTag t sink = sink ++ tagBytes t := by
  have (bs : List Byte) : ∀ sk : List Byte, bs.foldl sinkWrite sk = sk ++ bs := by
    induction bs with
    | nil => simp
    | cons b bs ih => intro sk; simp [ih, sinkWrite]
  exact this _ _

/-- The tag phase of `DECM` assembles the bytes of its region. -/
theorem readTag_eq (mem : Memory) (base : Addr) (n : Nat) :
    ∀ (k : Nat) (rx : BitVec p.width),
      readTag mem base n k rx = tagFromBytesAt rx k (memBytes mem (byteAddr base k) n) := by
  induction n with
  | zero => exact fun _ _ => rfl
  | succ n ih => intro k rx; simp [readTag, ih, memBytes_cons, tagFromBytesAt]

/-! ### Phases over the stream ports -/

/-- The IV phase of `ENCS` encrypts the bytes of its region into the sink. -/
theorem encryptMemToSink_eq (mem : Memory) (base : Addr) (n : Nat) :
    ∀ (i : Nat) (st : Stream p), encryptMemToSink mem base n i st =
      { st with
        session := (encryptBytes st.session (memBytes mem (byteAddr base i) n)).1
        sink := st.sink ++ (encryptBytes st.session (memBytes mem (byteAddr base i) n)).2 } := by
  induction n with
  | zero => intro i st; simp [encryptMemToSink, memBytes_zero]
  | succ n ih => intro i st; simp [encryptMemToSink, ih, memBytes_cons, encryptBytes_cons, sinkWrite]

/-- The payload phase of `ENCS` takes up to `n` source bytes and says whether there were fewer. -/
theorem encryptSource_eq (n : Nat) :
    ∀ st : Stream p, encryptSource n st =
      { session := (encryptBytes st.session (st.source.take n)).1
        source := st.source.drop n
        sink := st.sink ++ (encryptBytes st.session (st.source.take n)).2
        short := st.short || decide (st.source.length < n) } := by
  induction n with
  | zero => intro st; simp [encryptSource]
  | succ n ih =>
    rintro ⟨ss, src, sk, sh⟩
    cases src with
    | nil => simp [encryptSource, srcRead]
    | cons b src => simp [encryptSource, srcRead, ih, encryptBytes_cons, sinkWrite]

/-- The IV phase of `DECS` decrypts up to `n` source bytes and drops them. -/
theorem discardSource_eq (n : Nat) :
    ∀ st : Stream p, discardSource n st =
      { session := (decryptBytes st.session (st.source.take n)).1
        source := st.source.drop n
        sink := st.sink
        short := st.short || decide (st.source.length < n) } := by
  induction n with
  | zero => intro st; simp [discardSource]
  | succ n ih =>
    rintro ⟨ss, src, sk, sh⟩
    cases src with
    | nil => simp [discardSource, srcRead]
    | cons b src => simp [discardSource, srcRead, ih, decryptBytes_cons]

/-- The payload phase of `DECS` decrypts up to `n` source bytes into the sink. -/
theorem decryptSource_eq (n : Nat) :
    ∀ st : Stream p, decryptSource n st =
      { session := (decryptBytes st.session (st.source.take n)).1
        source := st.source.drop n
        sink := st.sink ++ (decryptBytes st.session (st.source.take n)).2
        short := st.short || decide (st.source.length < n) } := by
  induction n with
  | zero => intro st; simp [decryptSource]
  | succ n ih =>
    rintro ⟨ss, src, sk, sh⟩
    cases src with
    | nil => simp [decryptSource, srcRead]
    | cons b src => simp [decryptSource, srcRead, ih, decryptBytes_cons, sinkWrite]

/-- The tag phase of `DECS` assembles up to `n` source bytes as they are. -/
theorem receiveTag_eq (n : Nat) :
    ∀ (k : Nat) (rx : BitVec p.width) (st : Stream p), receiveTag n k rx st =
      (tagFromBytesAt rx k (st.source.take n),
        { st with source := st.source.drop n, short := st.short || decide (st.source.length < n) }) := by
  induction n with
  | zero => intro k rx st; simp [receiveTag, tagFromBytesAt]
  | succ n ih =>
    rintro k rx ⟨ss, src, sk, sh⟩
    cases src with
    | nil => simp [receiveTag, srcRead, tagFromBytesAt]
    | cons b src => simp [receiveTag, srcRead, ih, tagFromBytesAt]

/-! ### Phases over memory -/

/-- The IV phase of `DECM` decrypts the bytes of its region. -/
theorem discardMem_eq (mem : Memory) (base : Addr) (n : Nat) :
    ∀ (i : Nat) (ss : Session p),
      discardMem mem base n i ss = (decryptBytes ss (memBytes mem (byteAddr base i) n)).1 := by
  induction n with
  | zero => exact fun _ _ => rfl
  | succ n ih => intro i ss; simp [discardMem, ih, memBytes_cons, decryptBytes_cons]

theorem encryptMem_wf (base out : Addr) (n : Nat) :
    ∀ (i : Nat) (ss : Session p) {m : Memory}, Memory.wf m → Memory.wf (encryptMem base out n i ss m).2 := by
  induction n with
  | zero => exact fun _ _ _ h => h
  | succ n ih => exact fun i ss _ h => ih (i + 1) _ (write_wf h _ _)

theorem decryptMem_wf (base out : Addr) (n : Nat) :
    ∀ (i : Nat) (ss : Session p) {m : Memory}, Memory.wf m → Memory.wf (decryptMem base out n i ss m).2 := by
  induction n with
  | zero => exact fun _ _ _ h => h
  | succ n ih => exact fun i ss _ h => ih (i + 1) _ (write_wf h _ _)

/-- Whatever the overlap, `encryptMem` writes the `n` bytes of its output region and no others. -/
theorem read_encryptMem_outside (base out a : Addr) (n : Nat) :
    ∀ (i : Nat) (ss : Session p) (m : Memory), (∀ j, i ≤ j → j < i + n → byteAddr out j ≠ a) →
      Memory.read (encryptMem base out n i ss m).2 a = Memory.read m a := by
  induction n with
  | zero => exact fun _ _ _ _ => rfl
  | succ n ih =>
    intro i ss m h
    rw [encryptMem, ih _ _ _ fun j hj hl => h j (by omega) (by omega)]
    exact read_write_other _ _ (h i le_rfl (by omega))

/-- Whatever the overlap, `decryptMem` writes the `n` bytes of its output region and no others. -/
theorem read_decryptMem_outside (base out a : Addr) (n : Nat) :
    ∀ (i : Nat) (ss : Session p) (m : Memory), (∀ j, i ≤ j → j < i + n → byteAddr out j ≠ a) →
      Memory.read (decryptMem base out n i ss m).2 a = Memory.read m a := by
  induction n with
  | zero => exact fun _ _ _ _ => rfl
  | succ n ih =>
    intro i ss m h
    rw [decryptMem, ih _ _ _ fun j hj hl => h j (by omega) (by omega)]
    exact read_write_other _ _ (h i le_rfl (by omega))

/-- The bytes still to be read of a region are as they were after a write below them. -/
theorem memBytes_write_below {base out : Addr} {n i : Nat} {m : Memory} (v : Byte)
    (h : ∀ j k, i ≤ j → j < k → k < i + (n + 1) → byteAddr out j ≠ byteAddr base k) :
    memBytes (Memory.write m (byteAddr out i) v) (byteAddr base (i + 1)) n = memBytes m (byteAddr base (i + 1)) n :=
  memBytes_congr fun k hk => by
    rw [byteAddr_byteAddr]
    exact read_write_other _ _ (h i _ le_rfl (by omega) (by omega))

/-- Where no byte is read after it was written, `encryptMem` encrypts the bytes that stood in its region before it (R53). -/
theorem encryptMem_eq (base out : Addr) (n : Nat) :
    ∀ (i : Nat) (ss : Session p) (m : Memory),
      (∀ j k, i ≤ j → j < k → k < i + n → byteAddr out j ≠ byteAddr base k) →
      encryptMem base out n i ss m = ((encryptBytes ss (memBytes m (byteAddr base i) n)).1,
        Memory.writeBytes m out i (encryptBytes ss (memBytes m (byteAddr base i) n)).2) := by
  induction n with
  | zero => exact fun _ _ _ _ => rfl
  | succ n ih =>
    intro i ss m h
    rw [encryptMem, ih _ _ _ fun j k hj hjk hk => h j k (by omega) hjk (by omega)]
    simp [memBytes_write_below _ h, memBytes_cons, encryptBytes_cons, Memory.writeBytes]

/-- Where no byte is read after it was written, `decryptMem` decrypts the bytes that stood in its region before it (R53). -/
theorem decryptMem_eq (base out : Addr) (n : Nat) :
    ∀ (i : Nat) (ss : Session p) (m : Memory),
      (∀ j k, i ≤ j → j < k → k < i + n → byteAddr out j ≠ byteAddr base k) →
      decryptMem base out n i ss m = ((decryptBytes ss (memBytes m (byteAddr base i) n)).1,
        Memory.writeBytes m out i (decryptBytes ss (memBytes m (byteAddr base i) n)).2) := by
  induction n with
  | zero => exact fun _ _ _ _ => rfl
  | succ n ih =>
    intro i ss m h
    rw [decryptMem, ih _ _ _ fun j k hj hjk hk => h j k (by omega) hjk (by omega)]
    simp [memBytes_write_below _ h, memBytes_cons, decryptBytes_cons, Memory.writeBytes]

/-! ### What a byte step does to a session (R84, R90–R92) -/

/-- Reading the session after a byte step: `encryptByte` and `decryptByte` absorb the plain byte. -/
theorem encryptByte_session (ss : Session p) (b : Byte) : (encryptByte ss b).1 = absorb ss b := rfl

theorem decryptByte_session (ss : Session p) (c : Byte) : (decryptByte ss c).1 = absorb ss (decryptByte ss c).2 := rfl

/-- A byte step takes a legal cursor to a legal one (R21). -/
theorem nextCursor_legal {c : Cursor} (h : CursorLegal p c) : CursorLegal p (nextCursor p c) := by
  obtain ⟨h₁, h₂⟩ := h
  have hc : (nextCursor p c).toNat = (c.toNat + 8) % p.laneMod := by
    cases p <;> simp [nextCursor, Profile.laneMod, Profile.width] <;> omega
  cases p <;> simp only [CursorLegal, hc, Profile.laneMod, Profile.width] at * <;> omega

end Sys2Proof.Machine
end

