-- ==== Sys2Proof/Laws/Exec.lean ====
section
/-! SUPPORT. What a command can do: one equation for each way a command goes, and the list of the shapes its next state
can have, from which whole-machine claims follow without unfolding a meaning. -/

namespace Sys2Proof.Machine

variable {s t : State}

/-! ### The session commands -/

theorem execEncb_idle (d : Byte) (h : s.engine.phase = .idle) : execEncb d s = .next (raise .seq s) := by
  simp [execEncb, h]

theorem execEncb_opened (d : Byte) (h : s.engine.phase = .opened) :
    execEncb d s = .next { s with
      engine := complete false false
        { s.engine with
          session := absorb s.engine.session d
          dout := d ^^^ maskByte s.engine.session } } := by
  simp [execEncb, h, encryptByte]

theorem execDecb_idle (d : Byte) (h : s.engine.phase = .idle) : execDecb d s = .next (raise .seq s) := by
  simp [execDecb, h]

theorem execDecb_opened (d : Byte) (h : s.engine.phase = .opened) :
    execDecb d s = .next { s with
      engine := complete false false
        { s.engine with
          session := absorb s.engine.session (d ^^^ maskByte s.engine.session)
          dout := d ^^^ maskByte s.engine.session } } := by
  simp [execDecb, h, decryptByte]

theorem execFinal_idle (h : s.engine.phase = .idle) : execFinal s = .next (raise .seq s) := by
  simp [execFinal, h]

theorem execFinal_opened (h : s.engine.phase = .opened) :
    execFinal s = .next { s with
      engine := complete false false (close (finalizeTag s.engine.session) s.engine) } := by
  simp [execFinal, h]

/-! ### The guards of the controller commands (R155, R156) -/

theorem execEncs_size (h : frameTooSmall s.engine) : execEncs s = .next (raise .size s) := if_pos h

theorem execDecs_size (h : frameTooSmall s.engine) : execDecs s = .next (raise .size s) := if_pos h

theorem execEncm_size (h : frameTooSmall s.engine) : execEncm s = .next (raise .size s) := if_pos h

theorem execDecm_size (h : frameTooSmall s.engine) : execDecm s = .next (raise .size s) := if_pos h

theorem execEncs_bus (h : ¬ frameTooSmall s.engine)
    (hr : ¬ RegionOK s.mapped s.engine.ivp s.engine.ivlen.toNat) : execEncs s = .next (raise .bus s) :=
  (if_neg h).trans (if_neg hr)

theorem execEncm_bus (h : ¬ frameTooSmall s.engine) (hr : ¬ EncmRegionsOK s) : execEncm s = .next (raise .bus s) :=
  (if_neg h).trans (if_neg hr)

theorem execDecm_bus (h : ¬ frameTooSmall s.engine) (hr : ¬ DecmRegionsOK s) : execDecm s = .next (raise .bus s) :=
  (if_neg h).trans (if_neg hr)

/-! ### The shapes of a next state -/

/-- `Ran s i t`: `t` has one of the shapes that command `i` can give `s`. -/
inductive Ran (s : State) : Instr → State → Prop
  /-- `NOP` changes nothing (R140). -/
  | nop : Ran s .nop s
  /-- `RST` resets every engine register (R141). -/
  | rst : Ran s .rst (resetEngine s)
  /-- A fault rewrites four `STATUS` fields; `NOP`, `INIT` and `RST` never fault (R151). -/
  | fault (i : Instr) (hi : i ∉ [Instr.nop, .init, .rst]) (f : Err) (hf : f ≠ .ok) : Ran s i (raise f s)
  /-- `INIT` opens a session (R95). -/
  | init : Ran s .init { s with
      engine := complete false false { s.engine with session := initSession s.engine.key, phase := .opened } }
  /-- A byte command absorbs a plain byte into the open session (R96, R97). -/
  | byteStep (i : Instr) (d plain out : Byte) (hi : i = .encb d ∨ i = .decb d) (hp : s.engine.phase = .opened) :
      Ran s i { s with
        engine := complete false false { s.engine with session := absorb s.engine.session plain, dout := out } }
  /-- `FINAL` or a controller command closes the session and latches a tag; a buffer command may have written memory,
  keeping the canonical form, and a stream command may have moved the ports (R94, R113). -/
  | done (i : Instr) (hi : i ∈ [Instr.final, .encs, .decs, .encm, .decm]) (valid short : Bool)
      (tag : BitVec s.profile.width) (m : Memory) (src snk : List Byte) (hm : Memory.wf s.mem → Memory.wf m)
      (hmem : i ∉ [Instr.encm, .decm] → m = s.mem) (hport : i ∉ [Instr.encs, .decs] → src = s.source ∧ snk = s.sink)
      (hv : valid = true → short = false) :
      Ran s i { s with engine := complete valid short (close tag s.engine), mem := m, source := src, sink := snk }

/-- The next state of `ENCS` has one of these shapes. -/
theorem execEncs_ran (h : execEncs s = .next t) : Ran s .encs t := by
  unfold execEncs at h
  split at h
  · cases h; exact .fault _ (by simp) _ nofun
  · split at h
    · cases h; exact .done _ (by simp) _ _ _ _ _ _ id (fun _ => rfl) (by simp) nofun
    · cases h; exact .fault _ (by simp) _ nofun

theorem execDecs_ran (h : execDecs s = .next t) : Ran s .decs t := by
  unfold execDecs at h
  split at h
  · cases h; exact .fault _ (by simp) _ nofun
  · cases h; exact .done _ (by simp) _ _ _ _ _ _ id (fun _ => rfl) (by simp) (by simp; tauto)

theorem execEncm_ran (h : execEncm s = .next t) : Ran s .encm t := by
  unfold execEncm at h
  split at h
  · cases h; exact .fault _ (by simp) _ nofun
  · split at h
    · cases h
      exact .done _ (by simp) _ _ _ _ _ _
        (fun hm => writeBytes_wf _ _ _ (encryptMem_wf _ _ _ _ _ (encryptMem_wf _ _ _ _ _ hm)))
        (by simp) (fun _ => ⟨rfl, rfl⟩) nofun
    · cases h; exact .fault _ (by simp) _ nofun

theorem execDecm_ran (h : execDecm s = .next t) : Ran s .decm t := by
  unfold execDecm at h
  split at h
  · cases h; exact .fault _ (by simp) _ nofun
  · split at h
    · cases h
      exact .done _ (by simp) _ _ _ _ _ _ (fun hm => decryptMem_wf _ _ _ _ _ hm) (by simp) (fun _ => ⟨rfl, rfl⟩)
        (fun _ => rfl)
    · cases h; exact .fault _ (by simp) _ nofun

/-- Everything a command can do. -/
theorem exec_ran {i : Instr} (h : exec i s = .next t) : Ran s i t := by
  cases i with
  | nop => cases h; exact .nop
  | rst => cases h; exact .rst
  | init => cases h; exact .init
  | encb d =>
    cases hp : s.engine.phase with
    | idle => rw [exec, execEncb_idle d hp] at h; cases h; exact .fault _ (by simp) _ nofun
    | opened => rw [exec, execEncb_opened d hp] at h; cases h; exact .byteStep _ d _ _ (.inl rfl) hp
  | decb d =>
    cases hp : s.engine.phase with
    | idle => rw [exec, execDecb_idle d hp] at h; cases h; exact .fault _ (by simp) _ nofun
    | opened => rw [exec, execDecb_opened d hp] at h; cases h; exact .byteStep _ d _ _ (.inr rfl) hp
  | final =>
    cases hp : s.engine.phase with
    | idle => rw [exec, execFinal_idle hp] at h; cases h; exact .fault _ (by simp) _ nofun
    | opened =>
      rw [exec, execFinal_opened hp] at h
      cases h
      exact .done _ (by simp) _ _ _ _ _ _ id (fun _ => rfl) (fun _ => ⟨rfl, rfl⟩) nofun
  | encs => exact execEncs_ran h
  | decs => exact execDecs_ran h
  | encm => exact execEncm_ran h
  | decm => exact execDecm_ran h

end Sys2Proof.Machine
end

