-- ==== Sys2Proof/Laws/Step.lean ====
section
/-! SUPPORT. What a step can do: the idle step, and one equation for each input of the outside world (R12, R142, R143). -/

namespace Sys2Proof.Machine

variable {s : State} {rest : List Input}

theorem step_input {inp : Input} (h : s.inputs = inp :: rest) : step s = applyInput inp { s with inputs := rest } := by
  simp [step, h]

theorem hostWrite_unaligned {off : HostOffset} (v : Word32) (h : off.wf = false) :
    hostWrite off v s = .fault .hostAccessUnaligned := by
  simp [hostWrite, h]

theorem hostRead_unaligned {off : HostOffset} (h : off.wf = false) : hostRead off s = .fault .hostAccessUnaligned := by
  simp [hostRead, h]

theorem hostRead_aligned {off : HostOffset} (h : off.wf = true) :
    hostRead off s = .next (record .read off (hostReadValue off s) s) := by
  simp [hostRead, h]

theorem hostWrite_operand {off : HostOffset} (v : Word32) (h : off.wf = true) (h0 : off ≠ 0x00#8) :
    hostWrite off v s = .next { record .write off v s with engine := writeOperand off v s.engine } := by
  simp [hostWrite, h, h0]

theorem hostWrite_cmd (v : Word32) : hostWrite 0x00#8 v s = runCommand v (record .write 0x00#8 v s) := rfl

theorem runCommand_legal {c : Word32} {i : Instr} (h : decode c = .ok i) : runCommand c s = exec i s := by
  simp [runCommand, h]

theorem runCommand_illegal {c : Word32} {e : DecodeError} (h : decode c = .error e) :
    runCommand c s = .next (raise .ill s) := by
  simp [runCommand, h]

/-- An operand write touches operand registers only. -/
theorem writeOperand_frame {p : Profile} (off : HostOffset) (v : Word32) (e : Engine p) :
    writeOperand off v e =
      { e with
        key := (writeOperand off v e).key
        len := (writeOperand off v e).len
        ivlen := (writeOperand off v e).ivlen
        src := (writeOperand off v e).src
        dst := (writeOperand off v e).dst
        ivp := (writeOperand off v e).ivp } := by
  unfold writeOperand
  split <;> rfl

/-- The halves of `KEY` are independent (R29). -/
theorem writeKeyLow_writeKeyHigh_comm {p : Profile} (k : BitVec p.width) (v w : Word32) :
    writeKeyLow (writeKeyHigh k w) v = writeKeyHigh (writeKeyLow k v) w := by
  cases p with
  | w32 => rfl
  | w64 =>
    exact (congrArg (· ++ v) (BitVec.extractLsb'_append_eq_left ..)).trans
      (congrArg (w ++ ·) (BitVec.extractLsb'_append_eq_right ..).symm)

/-- Operand registers are independent: writes to two offsets take effect in either order (R68). -/
theorem writeOperand_comm {p : Profile} {off off' : HostOffset} (v w : Word32) (e : Engine p) (h : off ≠ off') :
    writeOperand off v (writeOperand off' w e) = writeOperand off' w (writeOperand off v e) := by
  have hn : off.toNat ≠ off'.toNat := fun he => h (BitVec.eq_of_toNat_eq he)
  unfold writeOperand
  split <;> split <;> first | rfl | simp_all [writeKeyLow_writeKeyHigh_comm]

/-- Everything an input that leads to a next state can have been. -/
theorem applyInput_cases {inp : Input} {t : State} (h : applyInput inp s = .next t) :
    (∃ c i, inp = .hostWrite 0x00#8 c ∧ decode c = .ok i ∧ exec i (record .write 0x00#8 c s) = .next t) ∨
      (∃ c e, inp = .hostWrite 0x00#8 c ∧ decode c = .error e ∧ t = raise .ill (record .write 0x00#8 c s)) ∨
      (∃ off v, inp = .hostWrite off v ∧ off ≠ 0x00#8 ∧
        t = { record .write off v s with engine := writeOperand off v s.engine }) ∨
      (∃ off, inp = .hostRead off ∧ t = record .read off (hostReadValue off s) s) ∨
      (inp = .hardReset ∧ t = resetEngine s) ∨ (∃ bs, inp = .setSource bs ∧ t = { s with source := bs }) ∨
      (∃ a v, inp = .placeByte a v ∧ t = { s with mem := Memory.write s.mem a v }) := by
  cases inp with
  | hostWrite off v =>
    by_cases h0 : off = 0x00#8
    · subst h0
      cases hd : decode v with
      | ok i => exact .inl ⟨v, i, rfl, hd, by rwa [applyInput, hostWrite_cmd, runCommand_legal hd] at h⟩
      | error e =>
        rw [applyInput, hostWrite_cmd, runCommand_illegal hd] at h
        exact .inr (.inl ⟨v, e, rfl, hd, (Host.Outcome.next.inj h).symm⟩)
    · cases hw : off.wf with
      | false => rw [applyInput, hostWrite_unaligned v hw] at h; cases h
      | true =>
        rw [applyInput, hostWrite_operand v hw h0] at h
        exact .inr (.inr (.inl ⟨off, v, rfl, h0, (Host.Outcome.next.inj h).symm⟩))
  | hostRead off =>
    cases hw : off.wf with
    | false => rw [applyInput, hostRead_unaligned hw] at h; cases h
    | true =>
      rw [applyInput, hostRead_aligned hw] at h
      exact .inr (.inr (.inr (.inl ⟨off, rfl, (Host.Outcome.next.inj h).symm⟩)))
  | hardReset => exact .inr (.inr (.inr (.inr (.inl ⟨rfl, (Host.Outcome.next.inj h).symm⟩))))
  | setSource bs => exact .inr (.inr (.inr (.inr (.inr (.inl ⟨bs, rfl, (Host.Outcome.next.inj h).symm⟩)))))
  | placeByte a v => exact .inr (.inr (.inr (.inr (.inr (.inr ⟨a, v, rfl, (Host.Outcome.next.inj h).symm⟩)))))

end Sys2Proof.Machine
end

