-- ==== Sys2Proof/Laws/Assembler.lean ====
section
/-! SUPPORT. What the lines of a program stand for: one equation per line with an operand, the accesses a line can give, and
the registers after a list of operand writes (R67, R68). -/

namespace Sys2Proof.Machine

variable {s : State} {p : Profile}

@[simp] theorem transaction_wr (r : RegName) (v : Word32) :
    transaction (.wr r v.toNat) = some (.hostWrite (regOffset r) v) := by
  simp [transaction, v.isLt]

@[simp] theorem transaction_encb (b : Byte) : transaction (.encb b.toNat) = some (asmCommand (.encb b)) := by
  simp [transaction, asmByte, immWf, b.isLt]

@[simp] theorem transaction_decb (b : Byte) : transaction (.decb b.toNat) = some (asmCommand (.decb b)) := by
  simp [transaction, asmByte, immWf, b.isLt]

theorem assemble_plain (line : AsmLine) : assemble p (.plain line) = (transaction line).map fun inp => [inp] := by
  cases h : transaction line <;> simp [assemble, h]

theorem regOffset_wf (r : RegName) : (regOffset r).wf = true := by cases r <;> decide

/-- A line's transaction is a read or a write of an aligned offset (R28, R69). -/
theorem transaction_aligned {line : AsmLine} {inp : Input} (h : transaction line = some inp) :
    ∃ off : HostOffset, off.wf = true ∧ (inp = .hostRead off ∨ ∃ v, inp = .hostWrite off v) := by
  cases line <;> simp only [transaction, asmByte, asmCommand] at h <;> (try split at h) <;> cases h <;>
    first
      | exact ⟨_, regOffset_wf _, .inl rfl⟩
      | exact ⟨_, regOffset_wf _, .inr ⟨_, rfl⟩⟩
      | exact ⟨_, by decide, .inr ⟨_, rfl⟩⟩

end Sys2Proof.Machine
end

