-- ==== Sys2Proof/Laws/PerInstr.lean ====
section
/-! SUPPORT. Claims about an instruction as syntax, one lemma a constructor. -/

namespace Sys2Proof.Laws

/-- The fields of a command's word: `OP` is the command's opcode number, `DATA` its byte operand or 0, and no reserved bit
is set (R60–R62). -/
def EncodedFields.Statement (i : Instr) : Prop :=
  opField (encode i) = i.opcode ∧ dataField (encode i) = i.dataByte ∧ encode i &&& reservedMask = 0#32

theorem EncodedFields.nop : EncodedFields.Statement .nop := by unfold Statement; decide

theorem EncodedFields.init : EncodedFields.Statement .init := by unfold Statement; decide

theorem EncodedFields.encb (data : Byte) : EncodedFields.Statement (.encb data) := by
  unfold Statement; revert data; decide +kernel

theorem EncodedFields.decb (data : Byte) : EncodedFields.Statement (.decb data) := by
  unfold Statement; revert data; decide +kernel

theorem EncodedFields.final : EncodedFields.Statement .final := by unfold Statement; decide

theorem EncodedFields.encs : EncodedFields.Statement .encs := by unfold Statement; decide

theorem EncodedFields.decs : EncodedFields.Statement .decs := by unfold Statement; decide

theorem EncodedFields.encm : EncodedFields.Statement .encm := by unfold Statement; decide

theorem EncodedFields.decm : EncodedFields.Statement .decm := by unfold Statement; decide

theorem EncodedFields.rst : EncodedFields.Statement .rst := by unfold Statement; decide

end Sys2Proof.Laws
end

