-- ==== Sys2Proof/Tests/Slice0.lean ====
section
/-! SUPPORT. Small tests whose expected values come from the spec (95_test_vectors.md, the worked examples of the rules, the
encodings of 30_encoding.md), and for every statement with hypotheses a state that meets them together. -/

/- The theorems of this file are checked one after another: side by side their kernel evaluations want more threads than
the check's memory limit has room for. -/
set_option Elab.async false

namespace Sys2Proof.Tests

open Sys2Proof.Machine

/-! ### Helpers -/

/-- The next state of a command, or the state it started from. -/
def after (i : Instr) (s : State) : State :=
  match exec i s with
  | .next t => t
  | .fault _ => s
  | .refused _ => s

/-- The next state of a step, or the state it started from. -/
def stepped (s : State) : State :=
  match step s with
  | .next t => t
  | .fault _ => s
  | .refused _ => s

/-- The state after reset with one access to come. -/
def access (inp : Input) : State := { State.reset with inputs := [inp] }

/-- A 32-bit engine with an open session under key 1 (R95's worked example). -/
def key1 : State := after .init { State.reset with engine := { State.reset.engine with key := 0x00000001#32 } }

/-- V-0: a zero seed in an open session. -/
def zeroSeed : State :=
  { key1 with engine := { key1.engine with session :=
    { seed := 0x00000000#32, tag := 0x00000041#32, ipad := 0#32, opad := 0#32, cur := 0#6 } } }

/-- The IV `A5 5A` at 1000 and the payload `44 52 47 4E` at 2000, `W = 32` (section 4 of the vectors). -/
def mem1 : Memory :=
  [(0x1000, 0xA5#8), (0x1001, 0x5A#8), (0x2000, 0x44#8), (0x2001, 0x52#8), (0x2002, 0x47#8), (0x2003, 0x4E#8)]

/-- The frame of V-M1. -/
def frame1 : List Byte := [0x12#8, 0x40#8, 0x43#8, 0xDA#8, 0xDF#8, 0x8E#8, 0xEC#8, 0x3F#8, 0xFA#8, 0x90#8]

/-- The setup of V-M and V-S: key `DEADBEEF`, `IVLEN = 2`, `LEN = 10`, and the regions of V-M1. -/
def setup (mem : Memory) (source : List Byte) (src dst : Addr) : State :=
  let s := State.resetWith .w32 [AddrRange.all] mem source
  { s with engine := { s.engine with
      key := 0xDEADBEEF#32, len := 10#32, ivlen := 2#32, ivp := 0x1000#32, src := src, dst := dst } }

/-- V-M1: ready for `ENCM`. -/
def encmState : State := setup mem1 [] 0x2000#32 0x3000#32

/-- V-M2: ready for `DECM`. -/
def decmState : State := setup (Memory.writeBytes mem1 0x3000#32 0 frame1) [] 0x3000#32 0x4000#32

/-- V-S: ready for a stream command, with this source. -/
def streamState (source : List Byte) : State := setup mem1 source 0x2000#32 0x3000#32

/-- V-S with the platform window `1000 … 1FFF` of the `E_BUS` table and other bases. -/
def windowed (ivp src dst : Addr) : State :=
  let s := setup mem1 [] src dst
  { s with mapped := [⟨0x1000#32, 0x1FFF#32⟩], engine := { s.engine with ivp := ivp } }

/-! ### Decoding and encoding, words written out from 30_encoding.md (R61–R64) -/

theorem test_decode_nop : decode 0b00000000000000000000000000000000#32 = .ok .nop := by decide

theorem test_decode_init : decode 0b00000000000000000000000000000001#32 = .ok .init := by decide

theorem test_decode_encb : decode 0b00000000000000000100100000000010#32 = .ok (.encb 0x48#8) := by decide

theorem test_decode_decb : decode 0b00000000000000001111111100000011#32 = .ok (.decb 0xFF#8) := by decide

theorem test_decode_final : decode 0b00000000000000000000000000000100#32 = .ok .final := by decide

theorem test_decode_encs : decode 0b00000000000000000000000000000101#32 = .ok .encs := by decide

theorem test_decode_decs : decode 0b00000000000000000000000000000110#32 = .ok .decs := by decide

theorem test_decode_encm : decode 0b00000000000000000000000000000111#32 = .ok .encm := by decide

theorem test_decode_decm : decode 0b00000000000000000000000000001000#32 = .ok .decm := by decide

theorem test_decode_rst : decode 0b00000000000000000000000000001001#32 = .ok .rst := by decide

/-- V-E steps 2 to 4 and 10: a reserved opcode, `DATA` in `INIT`, a `Z1` bit in `ENCB`, and a `Z0` bit. -/
theorem test_decode_illegal :
    decode 0x0000000A#32 = .error .reservedOpcode ∧ decode 0x0000000F#32 = .error .reservedOpcode ∧
      decode 0x00000101#32 = .error .dataInFormatN ∧ decode 0x00010002#32 = .error .reservedBit ∧
      decode 0x00000010#32 = .error .reservedBit := by decide

/-- R67: `encb 'H'` and `decb 0x69`. -/
theorem test_encode_format_B : encode (.encb 0x48#8) = 0x00004802#32 ∧ encode (.decb 0x69#8) = 0x00006903#32 := by decide

theorem test_decodeTableWord :
    decodeTableWord 32 0x00004802 = some (.encb 0x48#8) ∧ decodeTableWord 32 0x0000000B = none := by decide

/-! ### WellFormed: an ill-formed term for each check (R28, R67) -/

theorem test_offset_wf : HostOffset.wf 0x30#8 = true ∧ HostOffset.wf 0x06#8 = false := by decide

theorem test_imm_wf : immWf 255 = true ∧ immWf 256 = false := by decide

/-! ### Memory and tag bytes -/

/-- A byte at the top of the address space; writing what an unlisted address reads as takes the entry out. -/
theorem test_write_top :
    Memory.write (Memory.write [] 0xFFFFFFFF#32 0x7F#8) 0xFFFFFFFF#32 0x00#8 = [] ∧
      Memory.read (Memory.write mem1 0xFFFFFFFF#32 0x7F#8) 0xFFFFFFFF#32 = 0x7F#8 := by decide

/-- R43 on the tag of V-S1: `EC 3F FA 90` is `90FA3FEC`. -/
theorem test_tagBytes :
    tagBytes (p := .w32) 0x90FA3FEC#32 = [0xEC#8, 0x3F#8, 0xFA#8, 0x90#8] ∧
      tagFromBytes .w32 [0xEC#8, 0x3F#8, 0xFA#8, 0x90#8] = 0x90FA3FEC#32 := by decide

/-- R42: a region may end at the top of the address space, not run past it; a region of length 0 is never checked. -/
theorem test_regionOK :
    RegionOK [AddrRange.all] 0xFFFFFFFE#32 2 ∧ ¬ RegionOK [AddrRange.all] 0xFFFFFFFE#32 3 ∧ RegionOK [] 0x00000FFF#32 0 ∧
      RegionOK [⟨0x1000#32, 0x1FFF#32⟩] 0x1FF8#32 8 ∧ ¬ RegionOK [⟨0x1000#32, 0x1FFF#32⟩] 0x1FF9#32 8 := by decide

/-! ### The primitives (V-A, V-B, V-F) -/

theorem test_advance_w32 :
    advance (p := .w32) 0x0007FFFF#32 = 0x00F46063#32 ∧ advance (p := .w32) 0x80000000#32 = 0x80084000#32 := by decide

theorem test_advance_w64 : advance (p := .w64) 0xDEADBEEFCAFEF00D#64 = 0x27DC4E92298CAEAD#64 := by decide

theorem test_foldByte_w32 : foldByte (p := .w32) 0xFFFFFFFF#32 16#6 0xFF#8 = (0xFF129F80#32, 0#6) := by decide

theorem test_foldByte_w64 : foldByte (p := .w64) 0x0123456789ABCDEF#64 48#6 0xFF#8 = (0x2216FED6569E01B4#64, 0#6) := by
  decide

/-! ### The session commands (V-I, V-Y, V-0, V-E, P1) -/

/-- V-E1. -/
theorem test_init_key1 :
    key1.engine.session =
      { seed := 0x00000001#32, tag := 0x525E2017#32, ipad := 0xB45951C7#32, opad := 0x49B2863C#32, cur := 0#6 } ∧
      statusWord key1.engine = 0x00000001#32 := by decide +kernel

/-- V-I7 and V-I12: the 64-bit pads, and the clamp of key 0. -/
theorem test_init_w64 :
    (initSession (p := .w64) 0#64).seed = 1#64 ∧ (initSession (p := .w64) 0#64).tag = 0xE7922027C09752E5#64 ∧
      (initSession (p := .w64) 0xDEADBEEFCAFEF00D#64).opad = 0xF74541A6834C7630#64 := by decide

/-- P1 after `encb 'H'`. -/
theorem test_encb_H :
    (after (.encb 0x48#8) key1).engine.session =
      { seed := 0x5CE0C5F4#32, tag := 0x5CE4E5D5#32, ipad := 0xB45951C7#32, opad := 0x49B2863C#32, cur := 8#6 } ∧
      (after (.encb 0x48#8) key1).engine.dout = 0x69#8 := by decide +kernel

/-- V-E step 1: no session. -/
theorem test_encb_idle : statusWord (after (.encb 0x48#8) State.reset).engine = 0x00000028#32 := by decide +kernel

/-- R97's worked example. -/
theorem test_decb :
    (after (.decb 0x69#8) key1).engine.session =
      { seed := 0x5CE0C5F4#32, tag := 0x5CE4E5D5#32, ipad := 0xB45951C7#32, opad := 0x49B2863C#32, cur := 8#6 } ∧
      (after (.decb 0x69#8) key1).engine.dout = 0x48#8 := by decide +kernel

/-- V-0 step 1: a zero seed passes the byte through and the lane cancels the tag. -/
theorem test_encb_zero_seed :
    (after (.encb 0x41#8) zeroSeed).engine.dout = 0x41#8 ∧
      (after (.encb 0x41#8) zeroSeed).engine.session.seed.toNat = 0 := by decide +kernel

/-- V-E1: the tag of the empty message; the session is closed. -/
theorem test_final :
    (after .final key1).engine.tagout.toNat = 0x6A19B65F ∧ (after .final key1).engine.session = Session.zero _ ∧
      statusWord (after .final key1).engine = 0x00000000#32 := by decide +kernel

/-- P3: a `FINAL` with no session open. -/
theorem test_final_idle : (after .final State.reset).engine.err = .seq := by decide +kernel

/-! ### The controller commands (V-M, V-S, V-E) -/

/-- V-S1. -/
theorem test_encs :
    (after .encs (streamState [0x44#8, 0x52#8, 0x47#8, 0x4E#8])).sink = frame1 ∧
      (after .encs (streamState [0x44#8, 0x52#8, 0x47#8, 0x4E#8])).engine.tagout.toNat = 0x90FA3FEC := by
  decide +kernel

/-- V-S3: a short read. -/
theorem test_encs_short :
    (after .encs (streamState [0x44#8, 0x52#8])).sink =
        [0x12#8, 0x40#8, 0x43#8, 0xDA#8, 0xD4#8, 0x91#8, 0x24#8, 0x5E#8] ∧
      statusWord (after .encs (streamState [0x44#8, 0x52#8])).engine = 0x00000004#32 := by decide +kernel

/-- V-S5: the bytes after the frame stay in the source. -/
theorem test_decs :
    (after .decs (streamState (frame1 ++ [0x99#8, 0x98#8]))).sink = [0x44#8, 0x52#8, 0x47#8, 0x4E#8] ∧
      (after .decs (streamState (frame1 ++ [0x99#8, 0x98#8]))).source = [0x99#8, 0x98#8] ∧
      statusWord (after .decs (streamState (frame1 ++ [0x99#8, 0x98#8]))).engine = 0x00000002#32 := by decide +kernel

/-- V-S7: the tag is cut short. -/
theorem test_decs_short_tag :
    (after .decs (streamState (frame1.take 8))).engine.tagout.toNat = 0x90FA3FEC ∧
      statusWord (after .decs (streamState (frame1.take 8))).engine = 0x00000004#32 := by decide +kernel

/-- V-M1. -/
theorem test_encm :
    memBytes (after .encm encmState).mem 0x3000#32 11 = frame1 ++ [0x00#8] ∧
      statusWord (after .encm encmState).engine = 0x00000000#32 := by decide +kernel

/-- The `E_BUS` table: the last byte of the frame is unmapped. -/
theorem test_encm_bus :
    statusWord (after .encm (windowed 0x1000#32 0x1000#32 0x1FF7#32)).engine = 0x00000048#32 := by decide +kernel

/-- V-M2. -/
theorem test_decm :
    memBytes (after .decm decmState).mem 0x4000#32 5 = [0x44#8, 0x52#8, 0x47#8, 0x4E#8, 0x00#8] ∧
      statusWord (after .decm decmState).engine = 0x00000002#32 := by decide +kernel

/-- V-T2: the top bit of the last tag byte is flipped. -/
theorem test_decm_tampered :
    statusWord (after .decm { decmState with mem := Memory.write decmState.mem 0x3009#32 0x10#8 }).engine =
      0x00000000#32 := by decide +kernel

/-- V-T4: a smaller `IVLEN` writes the recovered IV out first and is still valid. -/
theorem test_decm_smaller_ivlen :
    let s := setup decmState.mem [] 0x3000#32 0x6000#32
    let t := after .decm { s with engine := { s.engine with ivlen := 0#32 } }
    memBytes t.mem 0x6000#32 6 = [0xA5#8, 0x5A#8, 0x44#8, 0x52#8, 0x47#8, 0x4E#8] ∧
      statusWord t.engine = 0x00000002#32 := by decide +kernel

/-! ### `NOP`, `RST`, the register block -/

/-- R140: a `nop` after a faulting `ENCB` leaves `STATUS`. -/
theorem test_nop : statusWord (after .nop (after (.encb 0x48#8) State.reset)).engine = 0x00000028#32 := by decide +kernel

/-- V-E step 14, and memory is not touched. -/
theorem test_rst :
    (after .rst (after .encm encmState)).engine = Engine.reset _ ∧
      (after .rst encmState).mem = mem1 := by decide +kernel

/-- V-E step 3: an illegal word through `CMD`. -/
theorem test_step_illegal : statusWord (stepped (access (.hostWrite 0x00#8 0x00000101#32))).engine = 0x00000018#32 := by
  decide +kernel

theorem test_withFetchWord : (stepped (State.reset.withFetchWord 32 1)).engine.phase = .opened := by decide +kernel

/-- R28, R29: `KEYH` is ignored when `W = 32` and replaces `KEY[63:32]` when `W = 64`. -/
theorem test_key_halves :
    writeKeyHigh (p := .w32) 0xDEADBEEF#32 7#32 = 0xDEADBEEF#32 ∧
      writeKeyHigh (p := .w64) 0x0000000089ABCDEF#64 0x01234567#32 = 0x0123456789ABCDEF#64 ∧
      writeKeyLow (p := .w64) 0x0123456700000000#64 0x89ABCDEF#32 = 0x0123456789ABCDEF#64 := by decide

/-- P4: the halves of `TAGOUT`, and `ID`. -/
theorem test_reads_w64 :
    tagoutLow (p := .w64) 0x5A4817B37CCDF024#64 = 0x7CCDF024#32 ∧
      tagoutHigh (p := .w64) 0x5A4817B37CCDF024#64 = 0x5A4817B3#32 ∧ idWord .w64 = 0x00000040#32 := by decide

/-- R29: `KEYL` is write-only. -/
theorem test_read_key : hostReadValue 0x08#8 key1 = 0#32 ∧ hostReadValue 0x34#8 key1 = 0#32 := by decide +kernel

/-! ### Program lines (R67, R68, P1) -/

/-- P1: `encb 'H'     ; (W, 00, 00004802)`. -/
theorem test_line_encb :
    assembleLine .w32 ['e', 'n', 'c', 'b', ' ', '\'', 'H', '\'', ' ', ';', 'x'] =
      some [.hostWrite 0x00#8 0x00004802#32] := by decide +kernel

/-- P1: `wr KEYL, 0x1`; an immediate of 256 is none. -/
theorem test_line_wr :
    assembleLine .w32 ['w', 'r', ' ', 'K', 'E', 'Y', 'L', ',', ' ', '0', 'x', '1'] =
      some [.hostWrite 0x08#8 0x00000001#32] ∧ assemble .w32 (.plain (.decb 256)) = none := by decide +kernel

/-! ### Witnesses: for each statement with hypotheses a state that meets them, at the boundaries of its clauses -/

theorem witness_StepRunsDecodedCommand :
    (access (.hostWrite 0x00#8 0x00000001#32)).inputs = .hostWrite 0x00#8 0x00000001#32 :: [] ∧
      decode 0x00000001#32 = .ok .init := by decide +kernel

theorem witness_StepStopsOnlyOnUnalignedAccess :
    State.reset.inputs = [] ∧ step (access (.hostWrite 0x01#8 0#32)) = .fault .hostAccessUnaligned ∧
      step (access (.hostRead 0x33#8)) = .fault .hostAccessUnaligned := ⟨rfl, rfl, rfl⟩

theorem witness_BuildParametersNeverChange : step State.reset = .next State.reset := rfl

theorem witness_EnvironmentTouchesOnlyItsSpace :
    (access (.setSource [0x12#8])).inputs = .setSource [0x12#8] :: [] ∧
      (access (.placeByte 0xFFFFFFFF#32 0x7F#8)).inputs = .placeByte 0xFFFFFFFF#32 0x7F#8 :: [] := ⟨rfl, rfl⟩

/-- Every clause of an illegal word at its boundary, and the legal words beside them. -/
theorem witness_IllegalWordRaisesEIll :
    ([0x0000000A#32, 0x0000000F#32, 0x00000010#32, 0x000000F0#32, 0x00010000#32, 0x80000002#32, 0x00000100#32,
      0x0000FF04#32].all fun c =>
        (access (.hostWrite 0x00#8 c)).inputs = .hostWrite 0x00#8 c :: [] ∧ IllegalWord c) = true ∧
      ([0x00000009#32, 0x0000FF02#32, 0x0000FF03#32, 0x00000000#32].all fun c => ¬ IllegalWord c) = true := by
  decide +kernel

/-- R68 on `encstr "Hi"` (the words of P1) and a 64-bit `setkey`; the greatest key of each profile, and one above it. -/
theorem witness_AssembledLinesNeverStop :
    assemble .w32 (.pseudo (.encstr ['H', 'i'])) = some [.hostWrite 0x00#8 0x00004802#32, .hostWrite 0x00#8 0x00006902#32] ∧
      assemble .w64 (.pseudo (.setkey 0xFFFFFFFF00000001)) =
        some [.hostWrite 0x08#8 0x00000001#32, .hostWrite 0x0C#8 0xFFFFFFFF#32] ∧
      lineFits .w32 (.pseudo (.setkey 0xFFFFFFFF)) = true ∧ lineFits .w32 (.pseudo (.setkey 0x100000000)) = false := by
  decide +kernel

theorem witness_LinesExpandToTheirTransactions : (['H', '~', 'ÿ'].all fun c => c.toNat < 256) = true := by decide +kernel

/-- Each clause, in another order than the table's. -/
theorem witness_ExpansionsSetTheOperandsInAnyOrder :
    assemble .w32 (.pseudo (.setkey (0x7#32).toNat)) = some [.hostWrite 0x08#8 7#32] ∧
      assemble .w32 (.pseudo (.setbuf (1#32).toNat (2#32).toNat (3#32).toNat (4#32).toNat (0xFFFFFFFF#32).toNat)) =
        some [.hostWrite 0x18#8 1#32, .hostWrite 0x1C#8 2#32, .hostWrite 0x20#8 3#32, .hostWrite 0x14#8 4#32,
          .hostWrite 0x10#8 0xFFFFFFFF#32] ∧
      assemble .w32 (.pseudo (.setstream (3#32).toNat (4#32).toNat (5#32).toNat)) =
        some [.hostWrite 0x20#8 3#32, .hostWrite 0x14#8 4#32, .hostWrite 0x10#8 5#32] ∧
      [Input.hostWrite 0x10#8 5#32, .hostWrite 0x20#8 3#32, .hostWrite 0x14#8 4#32].isPerm
        [.hostWrite 0x20#8 3#32, .hostWrite 0x14#8 4#32, .hostWrite 0x10#8 5#32] = true := by decide +kernel

/-- Every row of the register map, the offsets between and after them, and both profiles' `KEYH`. -/
theorem witness_HostWriteFollowsTheRegisterMap :
    ([0x00#8, 0x04#8, 0x08#8, 0x0C#8, 0x10#8, 0x14#8, 0x18#8, 0x1C#8, 0x20#8, 0x24#8, 0x30#8, 0x34#8, 0xFC#8].all
      fun off => (access (.hostWrite off 7#32)).inputs = .hostWrite off 7#32 :: [] ∧ off.toNat % 4 = 0) = true ∧
      State.reset.profile = .w32 ∧ (State.resetWith .w64 [] [] []).profile = .w64 := by decide +kernel

theorem witness_HostReadReturnsTheRegister :
    ([0x00#8, 0x04#8, 0x08#8, 0x0C#8, 0x10#8, 0x14#8, 0x18#8, 0x1C#8, 0x20#8, 0x24#8, 0x28#8, 0x2C#8, 0x30#8, 0x34#8,
      0xFC#8].all fun off => (access (.hostRead off)).inputs = .hostRead off :: [] ∧ off.toNat % 4 = 0) = true := by
  decide +kernel

theorem witness_AdvanceUsesTheProfileTriple :
    (0x00002001#32 = 0x00000001#32 ^^^ (0x00000001#32 <<< 13) ∧ 0x00002001#32 = 0x00002001#32 ^^^ (0x00002001#32 >>> 17)) ∧
      0x2001#64 = 0x1#64 ^^^ (0x1#64 <<< 13) ∧ 0x2041#64 = 0x2001#64 ^^^ (0x2001#64 >>> 7) := by decide

theorem witness_FoldByteUsesTheLaneBelowTheTopByte :
    CursorLegal .w32 0#6 ∧ CursorLegal .w32 16#6 ∧ CursorLegal .w64 48#6 ∧ ¬ CursorLegal .w32 24#6 := by decide

theorem witness_TagBytesAreLittleEndian :
    frame1.length = 10 ∧ (frame1.drop 6).length = Profile.w32.width / 8 := by decide

/-- Both clauses of `EncbEncryptsOneByte`, `DecbDecryptsOneByte` and `FinalLatchesTheTagAndCloses`. -/
theorem witness_session_phases : State.reset.engine.phase = .idle ∧ key1.engine.phase = .opened := by decide +kernel

theorem witness_ZeroSeedPassesTheByteThrough :
    zeroSeed.engine.phase = .opened ∧ zeroSeed.engine.session.seed.toNat = 0 := by decide +kernel

/-- `LEN` one below `IVLEN + TAGW`. -/
theorem witness_TooSmallFrameRaisesESize :
    let s := { State.reset with engine := { State.reset.engine with len := 5#32, ivlen := 2#32 } }
    s.engine.len.toNat < s.engine.ivlen.toNat + s.profile.width / 8 := by decide +kernel

/-- For each command a bad region, with the frame's size at the boundary in the last. -/
theorem witness_BadRegionRaisesEBus :
    (FrameFits (windowed 0x0FFF#32 0x1000#32 0x1800#32) ∧ ¬ RegionOK (windowed 0x0FFF#32 0x1000#32 0x1800#32).mapped 0x0FFF#32 2) ∧
      ¬ RegionOK (windowed 0x1000#32 0x1FFD#32 0x1800#32).mapped 0x1FFD#32 4 ∧
      ¬ RegionOK (windowed 0x1000#32 0x1000#32 0x1FF7#32).mapped 0x1FF7#32 10 ∧
      FrameFits { State.reset with engine := { State.reset.engine with len := 4#32 } } := by decide +kernel

/-- `EncsAppendsTheFrame`, `StreamRoundTrip`: a source that holds the payload exactly. -/
theorem witness_EncsAppendsTheFrame :
    let s := streamState [0x44#8, 0x52#8, 0x47#8, 0x4E#8]
    FrameFits s ∧ RegionOK s.mapped s.engine.ivp s.engine.ivlen.toNat ∧ payloadOf s ≤ s.source.length := by decide +kernel

/-- `DecsAppendsThePayload`, at a whole frame and inside each phase, and `IvLengthIsNotAuthenticated` at `IVLEN` 0 and 2. -/
theorem witness_DecsAppendsThePayload :
    (∀ n ∈ [1, 3, 8, 10], FrameFits (streamState (frame1.take n))) ∧
      (0#32).toNat ≤ (streamState frame1).engine.ivlen.toNat ∧
      (2#32).toNat ≤ (streamState frame1).engine.ivlen.toNat := by decide +kernel

/-- The hypotheses of the statements about `ENCM` and of `BufferRoundTrip`, with the output of the decryption in place. -/
theorem witness_EncmWritesTheFrame :
    let s := encmState
    FrameFits s ∧ RegionOK s.mapped s.engine.ivp s.engine.ivlen.toNat ∧ RegionOK s.mapped s.engine.src (payloadOf s) ∧
      RegionOK s.mapped s.engine.dst s.engine.len.toNat ∧
      RegionsApart s.engine.dst s.engine.len.toNat s.engine.ivp s.engine.ivlen.toNat ∧
      RegionsApart s.engine.dst s.engine.len.toNat s.engine.src (payloadOf s) ∧
      RegionOK s.mapped s.engine.dst (payloadOf s) ∧
      s.engine.dst.toNat ≤ s.engine.dst.toNat + s.engine.ivlen.toNat := by decide +kernel

/-- An empty region based inside the frame is apart from it: no IV, and no payload. -/
theorem witness_RegionsApart_empty :
    RegionsApart 0x3000#32 10 0x3004#32 0 ∧ RegionsApart 0x3004#32 0 0x3000#32 10 ∧
      ¬ RegionsApart 0x3000#32 10 0x3009#32 1 ∧ RegionsApart 0x3000#32 10 0x300A#32 1 := by decide

/-- The same for `StreamAndBufferEncryptionAgree`: the payload in memory and on the source, with more after it. -/
theorem witness_StreamAndBufferEncryptionAgree :
    (setup mem1 [0x44#8, 0x52#8, 0x47#8, 0x4E#8, 0x99#8] 0x2000#32 0x3000#32).source =
      payloadBytes (setup mem1 [0x44#8, 0x52#8, 0x47#8, 0x4E#8, 0x99#8] 0x2000#32 0x3000#32) ++ [0x99#8] := by
  decide +kernel

/-- An overlap of `ENCM`'s regions that `EncmGoesByteByByte` and `EncmWritesOnlyItsFrame` cover (R53 (c)). -/
theorem witness_EncmGoesByteByByte :
    let s := setup mem1 [] 0x2000#32 0x2000#32
    FrameFits s ∧ RegionOK s.mapped s.engine.ivp s.engine.ivlen.toNat ∧ RegionOK s.mapped s.engine.src (payloadOf s) ∧
      RegionOK s.mapped s.engine.dst s.engine.len.toNat := by decide +kernel

theorem witness_EncmInPlaceWithoutIvIsSafe :
    let s := setup mem1 [] 0x2000#32 0x2000#32
    let u := { s with engine := { s.engine with ivlen := 0#32, len := 8#32 } }
    FrameFits u ∧ u.engine.ivlen = 0#32 ∧ u.engine.dst = u.engine.src ∧
      RegionOK u.mapped u.engine.dst u.engine.len.toNat := by decide +kernel

/-- `DecmGoesByteByByte`, `DecmWritesOnlyThePayload`, `DecmDecryptsTheFrameThatStoodThere`: in place, at the ciphertext's own
address, and apart. -/
theorem witness_DecmDecryptsTheFrameThatStoodThere :
    ([0x3000#32, 0x3002#32, 0x4000#32].all fun dst =>
      let s := setup decmState.mem [] 0x3000#32 dst
      FrameFits s ∧ RegionOK s.mapped s.engine.src s.engine.len.toNat ∧ RegionOK s.mapped s.engine.dst (payloadOf s) ∧
        (s.engine.dst.toNat ≤ s.engine.src.toNat + s.engine.ivlen.toNat ∨
          RegionsApart s.engine.dst (payloadOf s) s.engine.src s.engine.len.toNat)) = true := by decide +kernel

/-- The `DECM` clause of `IvLengthIsNotAuthenticated`: V-T4 apart from the frame, and in place, with `IVLEN` 0 for 2. -/
theorem witness_IvLengthIsNotAuthenticated :
    ([0x6000#32, 0x3000#32].all fun dst =>
      let s := setup decmState.mem [] 0x3000#32 dst
      let u := { s with engine := { s.engine with ivlen := 0#32 } }
      FrameFits s ∧ (0#32).toNat ≤ s.engine.ivlen.toNat ∧ RegionOK s.mapped s.engine.src s.engine.len.toNat ∧
        RegionOK s.mapped s.engine.dst (payloadOf u) ∧
        (s.engine.dst.toNat ≤ s.engine.src.toNat + (0#32).toNat ∨
          RegionsApart s.engine.dst (payloadOf u) s.engine.src s.engine.len.toNat)) = true := by decide +kernel

theorem witness_StreamAndBufferDecryptionAgree :
    (setup decmState.mem (frame1 ++ [0x99#8]) 0x3000#32 0x4000#32).source =
      memBytes decmState.mem 0x3000#32 10 ++ [0x99#8] := by decide +kernel

theorem witness_WrongTagChangesOnlyValid :
    FrameFits (streamState []) ∧
      (frame1.take 6).length = (streamState []).engine.ivlen.toNat + payloadOf (streamState []) ∧
      (frame1.drop 6).length = (streamState []).profile.width / 8 := by decide +kernel

/-- Both clauses one byte short. -/
theorem witness_ShortReadIsNoFault :
    let s := streamState [0x44#8, 0x52#8, 0x47#8]
    FrameFits s ∧ RegionOK s.mapped s.engine.ivp s.engine.ivlen.toNat ∧ s.source.length < payloadOf s ∧
      (streamState (frame1.take 9)).source.length < (streamState (frame1.take 9)).engine.len.toNat := by decide +kernel

/-- `EachFaultHasItsCause`, `CommandsWriteOnlyTheirColumns`: a command that completes and one that faults, `NOP`, and a byte
command. -/
theorem witness_EachFaultHasItsCause :
    exec .init State.reset = .next (after .init State.reset) ∧
      exec .final State.reset = .next (after .final State.reset) ∧ exec .nop State.reset = .next (after .nop State.reset) ∧
      exec (.encb 0x48#8) key1 = .next (after (.encb 0x48#8) key1) := ⟨rfl, rfl, rfl, rfl⟩

/-- `RST` with the sticky flag set. -/
theorem witness_OnlyResetClearsEflag :
    let s := { after .final State.reset with inputs := [.hostWrite 0x00#8 0x00000009#32] }
    s.engine.eflag = true ∧ (stepped s).engine.eflag = false := by decide +kernel

theorem witness_IdleSessionRegistersAreNeverRead :
    State.reset.engine.phase = .idle ∧ exec .init State.reset = .next (after .init State.reset) := ⟨rfl, rfl⟩

theorem witness_NewSessionForgetsTheOldOne :
    exec .encm encmState = .next (after .encm encmState) ∧ (after .encm encmState).engine.err = .ok :=
  ⟨rfl, by decide +kernel⟩

theorem witness_StepKeepsTheInvariant : Inv encmState ∧ step encmState = .next encmState :=
  ⟨⟨by decide +kernel, ⟨by decide +kernel, fun _ => rfl, nofun, nofun, nofun⟩⟩, rfl⟩

theorem witness_ResetMeetsTheInvariant : Memory.wf mem1 := by decide +kernel

end Sys2Proof.Tests
end

/-! ### The primitives: `advance` at each profile (R80) -/

namespace Sys2Proof.Machine

/-- `advance` with the 32-bit triple (13, 17, 5) written out, one step inside the other. -/
theorem advance_w32 (x : BitVec 32) :
    advance (p := .w32) x =
      (x ^^^ (x <<< 13) ^^^ ((x ^^^ (x <<< 13)) >>> 17)) ^^^
        ((x ^^^ (x <<< 13) ^^^ ((x ^^^ (x <<< 13)) >>> 17)) <<< 5) := rfl

/-- `advance` with the 64-bit triple (13, 7, 17) written out, one step inside the other. -/
theorem advance_w64 (x : BitVec 64) :
    advance (p := .w64) x =
      (x ^^^ (x <<< 13) ^^^ ((x ^^^ (x <<< 13)) >>> 7)) ^^^
        ((x ^^^ (x <<< 13) ^^^ ((x ^^^ (x <<< 13)) >>> 7)) <<< 17) := rfl

/-- Settles O16: naming the two intermediate results of `advance_w32` and `advance_w64`. -/
theorem advanceUsesTheProfileTriple : Obligations.AdvanceUsesTheProfileTriple := by
  unfold Obligations.AdvanceUsesTheProfileTriple
  constructor
  · rintro x _ _ rfl rfl
    exact advance_w32 x
  · rintro x _ _ rfl rfl
    exact advance_w64 x

end Sys2Proof.Machine

/-! ### The primitives: `advance` is 0 on 0 alone (R80) -/

namespace Sys2Proof.Machine

/-- Below bit `n` a left shift holds zeros, so a word equal to its own left shift is 0 from the lowest bit up. -/
theorem eq_zero_of_eq_shiftLeft {w n : Nat} {x : BitVec w} (hn : 0 < n) (h : x = x <<< n) : x = 0#w := by
  have hbit (i : Nat) : x.getLsbD i = false := by
    induction i using Nat.strong_induction_on with
    | _ i ih =>
      rw [h, BitVec.getLsbD_shiftLeft]
      by_cases hi : i < n
      · simp [hi]
      · simp [ih (i - n) (by omega)]
  exact BitVec.eq_of_getLsbD_eq fun i _ => by simp [hbit i]

/-- A right shift makes every nonzero word smaller. -/
theorem eq_zero_of_eq_ushiftRight {w n : Nat} {x : BitVec w} (hn : 0 < n) (h : x = x >>> n) : x = 0#w := by
  have hdiv : x.toNat = x.toNat / 2 ^ n := by
    simpa [Nat.shiftRight_eq_div_pow] using congrArg BitVec.toNat h
  have hzero : x.toNat = 0 :=
    (Nat.eq_zero_or_pos _).resolve_right fun hpos =>
      (Nat.div_lt_self hpos (Nat.one_lt_two_pow hn.ne')).ne hdiv.symm
  exact BitVec.eq_of_toNat_eq (by simpa using hzero)

theorem xor_shiftLeft_eq_zero_iff {w n : Nat} (hn : 0 < n) (x : BitVec w) : x ^^^ (x <<< n) = 0#w ↔ x = 0#w := by
  rw [BitVec.xor_eq_zero_iff]
  exact ⟨eq_zero_of_eq_shiftLeft hn, by rintro rfl; simp⟩

theorem xor_ushiftRight_eq_zero_iff {w n : Nat} (hn : 0 < n) (x : BitVec w) : x ^^^ (x >>> n) = 0#w ↔ x = 0#w := by
  rw [BitVec.xor_eq_zero_iff]
  exact ⟨eq_zero_of_eq_ushiftRight hn, by rintro rfl; simp⟩

theorem sh1_pos (p : Profile) : 0 < p.sh1 := by cases p <;> decide
theorem sh2_pos (p : Profile) : 0 < p.sh2 := by cases p <;> decide
theorem sh3_pos (p : Profile) : 0 < p.sh3 := by cases p <;> decide

/-- None of the three xorshift steps loses a nonzero word. -/
theorem advance_eq_zero_iff {p : Profile} (x : BitVec p.width) : advance x = 0#p.width ↔ x = 0#p.width := by
  simp only [advance, xor_shiftLeft_eq_zero_iff (sh3_pos p), xor_ushiftRight_eq_zero_iff (sh2_pos p),
    xor_shiftLeft_eq_zero_iff (sh1_pos p)]

end Sys2Proof.Machine

/-! ### The session commands: which meaning `exec` gives each -/

namespace Sys2Proof.Machine

theorem exec_init (s : State) : exec .init s = execInit s := rfl
theorem exec_encb (d : Byte) (s : State) : exec (.encb d) s = execEncb d s := rfl
theorem exec_decb (d : Byte) (s : State) : exec (.decb d) s = execDecb d s := rfl
theorem exec_final (s : State) : exec .final s = execFinal s := rfl

/-- The mask of a byte step is the advanced seed truncated to a byte (R91, R92). -/
theorem maskByte_eq_setWidth {p : Profile} (ss : Session p) : maskByte ss = (advance ss.seed).setWidth 8 :=
  (BitVec.setWidth_eq_extractLsb' (by cases p <;> decide)).symm

/-! ### `INIT` (R90, R95) -/

theorem toNat_clampKey {p : Profile} (k : BitVec p.width) :
    (clampKey k).toNat = if k.toNat ≤ 1 then 1 else k.toNat := by
  unfold clampKey
  split
  · cases p <;> rfl
  · rfl

/-- The clamp keeps a session's seed off 0, whatever the key (R90). -/
theorem clampKey_ne_zero {p : Profile} (k : BitVec p.width) : clampKey k ≠ 0#p.width := by
  intro h
  have hnat := congrArg BitVec.toNat h
  rw [toNat_clampKey, BitVec.toNat_zero] at hnat
  split at hnat <;> omega

/-- The tag a session starts with is 0 for one key alone, the inner pad constant (R90). -/
theorem advance_ipad_eq_zero_iff {p : Profile} (k : BitVec p.width) :
    advance (k ^^^ p.ipadC) = 0#p.width ↔ k = p.ipadC := by
  rw [advance_eq_zero_iff, BitVec.xor_eq_zero_iff]

/-- Settles O21: the next state is `execInit`'s; the seed and the tag it names are the clamped key and the advanced inner
pad. -/
theorem initOpensAFreshSession : Obligations.InitOpensAFreshSession := by
  unfold Obligations.InitOpensAFreshSession
  intro s
  refine ⟨clampKey s.engine.key, advance (s.engine.key ^^^ s.profile.ipadC), ?_, toNat_clampKey _,
    clampKey_ne_zero _, rfl, advance_ipad_eq_zero_iff _⟩
  rw [exec_init]
  rfl

/-! ### `ENCB` and `DECB` (R91, R92, R96, R97) -/

/-- Settles O22, from the two equations of `execEncb`, one for each phase. -/
theorem encbEncryptsOneByte : Obligations.EncbEncryptsOneByte := by
  unfold Obligations.EncbEncryptsOneByte
  intro s d
  rw [exec_encb]
  constructor
  · exact execEncb_idle d
  · rintro hopen _ _ rfl rfl
    rw [execEncb_opened d hopen, maskByte_eq_setWidth]
    rfl

/-- Settles O23, from the two equations of `execDecb`, one for each phase: the byte absorbed is the recovered one. -/
theorem decbDecryptsOneByte : Obligations.DecbDecryptsOneByte := by
  unfold Obligations.DecbDecryptsOneByte
  intro s d
  rw [exec_decb]
  constructor
  · exact execDecb_idle d
  · rintro hopen _ _ _ rfl rfl rfl
    rw [execDecb_opened d hopen, maskByte_eq_setWidth]
    rfl

/-! ### `FINAL` (R93, R94, R98) -/

/-- Settles O24, from the two equations of `execFinal`, one for each phase. -/
theorem finalLatchesTheTagAndCloses : Obligations.FinalLatchesTheTagAndCloses := by
  unfold Obligations.FinalLatchesTheTagAndCloses
  intro s
  rw [exec_final]
  constructor
  · exact execFinal_idle
  · intro hopen
    rw [execFinal_opened hopen]
    rfl

end Sys2Proof.Machine

/-! ### The controller commands: which meaning `exec` gives each, and their size guard (R111) -/

namespace Sys2Proof.Machine

theorem exec_encs (s : State) : exec .encs s = execEncs s := rfl
theorem exec_decs (s : State) : exec .decs s = execDecs s := rfl
theorem exec_encm (s : State) : exec .encm s = execEncm s := rfl
theorem exec_decm (s : State) : exec .decm s = execDecm s := rfl

/-- The size guard of the commands and the one of the statements are each other's negation. -/
theorem frameTooSmall_iff (s : State) : frameTooSmall s.engine ↔ ¬ FrameFits s := Nat.not_le.symm

theorem not_frameTooSmall {s : State} (h : FrameFits s) : ¬ frameTooSmall s.engine := Nat.not_lt.mpr h

/-- What a controller command that completes does to the registers, in the words of the statements. -/
theorem complete_close {p : Profile} (valid short : Bool) (t : BitVec p.width) (e : Engine p) :
    complete valid short (close t e) = closed valid short t e := rfl

/-- The payload length of the commands is the one of the statements (R111). -/
theorem payloadLen_eq (s : State) : payloadLen s.engine = payloadOf s := rfl

/-- A frame that fits is its IV, its payload and its tag. -/
theorem frame_length_split {s : State} (h : FrameFits s) :
    s.engine.ivlen.toNat + payloadOf s + s.profile.tagw = s.engine.len.toNat := by
  have hfits : s.engine.ivlen.toNat + s.profile.width / 8 ≤ s.engine.len.toNat := h
  simp only [payloadOf, Profile.tagw]
  omega

/-! ### `ENCS` (R114) -/

/-- The IV and the payload phase of `ENCS`, as one session over the IV and the source bytes it gets. -/
theorem encryptSource_encryptMemToSink (s : State) (base : Addr) (m n : Nat) :
    encryptSource n (encryptMemToSink s.mem base m 0 (openStream s)) =
      { session := (encryptBytes (initSession s.engine.key) (memBytes s.mem base m ++ s.source.take n)).1
        source := s.source.drop n
        sink := s.sink ++ cipherOf s.engine.key (memBytes s.mem base m ++ s.source.take n)
        short := decide (s.source.length < n) } := by
  have hbase : byteAddr base 0 = base := by simp [byteAddr]
  simp [encryptSource_eq, encryptMemToSink_eq, openStream, cipherOf, encryptBytes_append, hbase]

/-- `ENCS` past its guards. -/
theorem execEncs_done {s : State} (h : FrameFits s) (hr : RegionOK s.mapped s.engine.ivp s.engine.ivlen.toNat) :
    execEncs s = .next { s with
      engine := closed false (decide (s.source.length < payloadOf s))
        (tagOf s.engine.key (ivBytes s ++ s.source.take (payloadOf s))) s.engine
      source := s.source.drop (payloadOf s)
      sink := s.sink ++ frameOf s.engine.key (ivBytes s) (s.source.take (payloadOf s)) } := by
  rw [execEncs, if_neg (not_frameTooSmall h), if_pos hr]
  simp [payloadLen_eq, encryptSource_encryptMemToSink, sinkTag_eq, complete_close, tagOf, frameOf]

/-- Settles O30: `execEncs` by its guards, and past them its phases as one session over the IV and the source bytes. -/
theorem encsAppendsTheFrame : Obligations.EncsAppendsTheFrame := by
  unfold Obligations.EncsAppendsTheFrame
  simp only [exec_encs]
  refine ⟨fun s h => ?_, fun s h hr => ?_, fun s h hr => ?_⟩
  · exact execEncs_size ((frameTooSmall_iff s).mpr h)
  · exact execEncs_bus (not_frameTooSmall h) hr
  · exact execEncs_done h hr

/-! ### `DECS` (R115) -/

/-- The IV and the payload phase of `DECS`, as one session over up to `m + n` source bytes: where the IV phase runs
short, no plain byte is left after the `m` dropped ones. -/
theorem decryptSource_discardSource (s : State) (m n : Nat) :
    unlessShort (decryptSource n) (discardSource m (openStream s)) =
      { session := (decryptBytes (initSession s.engine.key) (s.source.take (m + n))).1
        source := s.source.drop (m + n)
        sink := s.sink ++ (plainOf s.engine.key (s.source.take (m + n))).drop m
        short := decide (s.source.length < m + n) } := by
  rcases Nat.lt_or_ge s.source.length m with hlt | hle
  · have hlt' : s.source.length < m + n := by omega
    simp [unlessShort, discardSource_eq, openStream, plainOf, hlt, hlt', hlt.le, hlt'.le, List.take_of_length_le]
  · have hshort : s.source.length < m + n ↔ s.source.length - m < n := by omega
    have hnot : ¬ s.source.length < m := by omega
    simp [unlessShort, discardSource_eq, decryptSource_eq, openStream, plainOf, List.take_add, decryptBytes_append,
      hnot, hle, hshort]

/-- `DECS` past its guard. The source runs short before the tag, within it, or not at all; in the first case
the tag phase is skipped, and the source is empty anyway. -/
theorem execDecs_done {s : State} (h : FrameFits s) (body rx : List Byte)
    (hbody : body = s.source.take (s.engine.ivlen.toNat + payloadOf s))
    (hrx : rx = (s.source.drop (s.engine.ivlen.toNat + payloadOf s)).take (s.profile.width / 8)) :
    execDecs s = .next { s with
      engine := closed
        (decide (s.engine.len.toNat ≤ s.source.length ∧ tagFromBytes s.profile rx = tagOfCipher s.engine.key body))
        (decide (s.source.length < s.engine.len.toNat)) (tagOfCipher s.engine.key body) s.engine
      source := s.source.drop s.engine.len.toNat
      sink := s.sink ++ (plainOf s.engine.key body).drop s.engine.ivlen.toNat } := by
  subst hbody hrx
  have hlen := frame_length_split h
  rw [execDecs, if_neg (not_frameTooSmall h), payloadLen_eq, decryptSource_discardSource]
  generalize s.engine.ivlen.toNat + payloadOf s = n at hlen ⊢
  rcases Nat.lt_or_ge s.source.length n with hcut | hfull
  · have hshort : s.source.length < s.engine.len.toNat := by omega
    simp [complete_close, tagOfCipher, hcut, hcut.le, hshort, hshort.le, hshort.not_ge]
  · rcases Nat.lt_or_ge s.source.length s.engine.len.toNat with hshort | hwhole
    · have htag : s.source.length - n < s.profile.tagw := by omega
      simp [complete_close, tagOfCipher, receiveTag_eq, hfull.not_gt, htag, hlen, hshort, hshort.not_ge]
    · have htag : ¬ s.source.length - n < s.profile.tagw := by omega
      simp [complete_close, tagOfCipher, receiveTag_eq, tagFromBytes, hfull.not_gt, htag, hlen, hwhole, hwhole.not_gt,
        beq_eq_decide]

/-- Settles O31: `execDecs` by its guard, and past it its phases as one session over the source bytes. -/
theorem decsAppendsThePayload : Obligations.DecsAppendsThePayload := by
  unfold Obligations.DecsAppendsThePayload
  simp only [exec_decs]
  refine ⟨fun s h => ?_, fun s h => ?_⟩
  · exact execDecs_size ((frameTooSmall_iff s).mpr h)
  · exact execDecs_done h

/-! ### The loops over memory, cut off after any number of bytes (R113) -/

/-- One round of `encryptMem`: the byte at `src` is read, encrypted and written to `dst`. -/
def encryptRound {p : Profile} (src dst : Addr) (r : Session p × Memory) : Session p × Memory :=
  let c := encryptByte r.1 (Memory.read r.2 src)
  (c.1, Memory.write r.2 dst c.2)

/-- One round of `decryptMem`: the byte at `src` is read, decrypted and written to `dst`. -/
def decryptRound {p : Profile} (src dst : Addr) (r : Session p × Memory) : Session p × Memory :=
  let c := decryptByte r.1 (Memory.read r.2 src)
  (c.1, Memory.write r.2 dst c.2)

theorem encryptMem_zero {p : Profile} (base out : Addr) (i : Nat) (ss : Session p) (m : Memory) :
    encryptMem base out 0 i ss m = (ss, m) := rfl

theorem decryptMem_zero {p : Profile} (base out : Addr) (i : Nat) (ss : Session p) (m : Memory) :
    decryptMem base out 0 i ss m = (ss, m) := rfl

/-- The last round of `encryptMem` is its byte `i + n`. -/
theorem encryptMem_succ {p : Profile} (base out : Addr) (n : Nat) :
    ∀ (i : Nat) (ss : Session p) (m : Memory), encryptMem base out (n + 1) i ss m =
      encryptRound (byteAddr base (i + n)) (byteAddr out (i + n)) (encryptMem base out n i ss m) := by
  induction n with
  | zero => exact fun _ _ _ => rfl
  | succ n ih =>
    intro i ss m
    rw [encryptMem, ih, encryptMem, Nat.add_right_comm i 1 n, Nat.add_assoc i n 1]

/-- The last round of `decryptMem` is its byte `i + n`. -/
theorem decryptMem_succ {p : Profile} (base out : Addr) (n : Nat) :
    ∀ (i : Nat) (ss : Session p) (m : Memory), decryptMem base out (n + 1) i ss m =
      decryptRound (byteAddr base (i + n)) (byteAddr out (i + n)) (decryptMem base out n i ss m) := by
  induction n with
  | zero => exact fun _ _ _ => rfl
  | succ n ih =>
    intro i ss m
    rw [decryptMem, ih, decryptMem, Nat.add_right_comm i 1 n, Nat.add_assoc i n 1]

/-- The last round of `discardMem` is its byte `i + n`. -/
theorem discardMem_succ {p : Profile} (mem : Memory) (base : Addr) (n : Nat) :
    ∀ (i : Nat) (ss : Session p), discardMem mem base (n + 1) i ss =
      (decryptByte (discardMem mem base n i ss) (Memory.read mem (byteAddr base (i + n)))).1 := by
  induction n with
  | zero => exact fun _ _ => rfl
  | succ n ih =>
    intro i ss
    rw [discardMem, ih, discardMem, Nat.add_right_comm i 1 n, Nat.add_assoc i n 1]

/-! ### `ENCM` (R116) -/

/-- The session and the memory after the first `i` bytes of `ENCM`: its two loops, cut off at byte `i`. -/
def encmUpTo (s : State) (i : Nat) : Session s.profile × Memory :=
  let iv := encryptMem s.engine.ivp s.engine.dst (min i s.engine.ivlen.toNat) 0 (initSession s.engine.key) s.mem
  encryptMem s.engine.src (byteAddr s.engine.dst s.engine.ivlen.toNat) (i - s.engine.ivlen.toNat) 0 iv.1 iv.2

/-- Where `ENCM` reads byte `i`: in the IV, then in the payload. -/
abbrev encmSource (s : State) (i : Nat) : Addr :=
  if i < s.engine.ivlen.toNat then byteAddr s.engine.ivp i else byteAddr s.engine.src (i - s.engine.ivlen.toNat)

@[simp] theorem encmUpTo_zero (s : State) : encmUpTo s 0 = (initSession s.engine.key, s.mem) := by
  simp [encmUpTo, encryptMem]

/-- Byte `i` of `ENCM` is one round on what the bytes before it left: in the IV loop, then in the payload loop. -/
theorem encmUpTo_succ (s : State) (i : Nat) :
    encmUpTo s (i + 1) = encryptRound (encmSource s i) (byteAddr s.engine.dst i) (encmUpTo s i) := by
  unfold encmUpTo encmSource
  by_cases hlt : i < s.engine.ivlen.toNat
  · have hsub : i + 1 - s.engine.ivlen.toNat = 0 := by omega
    have hsub' : i - s.engine.ivlen.toNat = 0 := by omega
    simp [hlt, hlt.le, hsub, hsub', encryptMem_succ, encryptMem_zero]
  · have hmin : min (i + 1) s.engine.ivlen.toNat = s.engine.ivlen.toNat := by omega
    have hmin' : min i s.engine.ivlen.toNat = s.engine.ivlen.toNat := by omega
    have hsub : i + 1 - s.engine.ivlen.toNat = i - s.engine.ivlen.toNat + 1 := by omega
    have hadd : s.engine.ivlen.toNat + (i - s.engine.ivlen.toNat) = i := by omega
    simp [hlt, hmin, hmin', hsub, hadd, encryptMem_succ]

/-- `ENCM` past its guards: all its bytes, then the tag. -/
theorem execEncm_done {s : State} (h : FrameFits s) (hr : EncmRegionsOK s) (t : BitVec s.profile.width)
    (ht : t = finalizeTag (encmUpTo s (s.engine.ivlen.toNat + payloadOf s)).1) :
    execEncm s = .next { s with
      engine := closed false false t s.engine
      mem := Memory.writeBytes (encmUpTo s (s.engine.ivlen.toNat + payloadOf s)).2 s.engine.dst
        (s.engine.ivlen.toNat + payloadOf s) (tagBytes t) } := by
  subst ht
  rw [execEncm, if_neg (not_frameTooSmall h), if_pos hr, payloadLen_eq]
  simp [encmUpTo, writeBytes_byteAddr, complete_close]

/-- Settles O32: `execEncm` by its guards, and past them the loops cut off at each byte as the sessions and memories. -/
theorem encmGoesByteByByte : Obligations.EncmGoesByteByByte := by
  unfold Obligations.EncmGoesByteByByte
  simp only [exec_encm]
  refine ⟨fun s h => ?_, fun s h hr => ?_, fun s h hivp hsrc hdst => ?_⟩
  · exact execEncm_size ((frameTooSmall_iff s).mpr h)
  · exact execEncm_bus (not_frameTooSmall h) hr
  · refine ⟨fun i => (encmUpTo s i).1, fun i => (encmUpTo s i).2, by simp, by simp, ?_, ?_⟩
    · rintro i - b rfl
      simp [encmUpTo_succ, encryptRound]
    · exact execEncm_done h ⟨hivp, hsrc, hdst⟩

/-! ### `DECM` (R117) -/

/-- The session and the memory after the first `i` bytes of `DECM`: its two loops, cut off at byte `i`. -/
def decmUpTo (s : State) (i : Nat) : Session s.profile × Memory :=
  decryptMem (byteAddr s.engine.src s.engine.ivlen.toNat) s.engine.dst (i - s.engine.ivlen.toNat) 0
    (discardMem s.mem s.engine.src (min i s.engine.ivlen.toNat) 0 (initSession s.engine.key)) s.mem

@[simp] theorem decmUpTo_zero (s : State) : decmUpTo s 0 = (initSession s.engine.key, s.mem) := by
  simp [decmUpTo, decryptMem, discardMem]

/-- An IV byte of `DECM` is decrypted and dropped. -/
theorem decmUpTo_succ_of_lt {s : State} {i : Nat} (hlt : i < s.engine.ivlen.toNat) :
    decmUpTo s (i + 1) =
      ((decryptByte (decmUpTo s i).1 (Memory.read (decmUpTo s i).2 (byteAddr s.engine.src i))).1,
        (decmUpTo s i).2) := by
  have hmin : min (i + 1) s.engine.ivlen.toNat = i + 1 := by omega
  have hsub : i + 1 - s.engine.ivlen.toNat = 0 := by omega
  have hsub' : i - s.engine.ivlen.toNat = 0 := by omega
  simp [decmUpTo, hlt.le, hmin, hsub, hsub', discardMem_succ, decryptMem_zero]

/-- A payload byte of `DECM` is decrypted and written. -/
theorem decmUpTo_succ_of_ge {s : State} {i : Nat} (hge : ¬ i < s.engine.ivlen.toNat) :
    decmUpTo s (i + 1) = decryptRound (byteAddr s.engine.src i)
      (byteAddr s.engine.dst (i - s.engine.ivlen.toNat)) (decmUpTo s i) := by
  have hmin : min (i + 1) s.engine.ivlen.toNat = s.engine.ivlen.toNat := by omega
  have hmin' : min i s.engine.ivlen.toNat = s.engine.ivlen.toNat := by omega
  have hsub : i + 1 - s.engine.ivlen.toNat = i - s.engine.ivlen.toNat + 1 := by omega
  have hadd : s.engine.ivlen.toNat + (i - s.engine.ivlen.toNat) = i := by omega
  simp [decmUpTo, hmin, hmin', hsub, hadd, decryptMem_succ]

/-- `DECM` past its guards: all its bytes, then the tag is read from the memory they leave. -/
theorem execDecm_done {s : State} (h : FrameFits s) (hr : DecmRegionsOK s) (m : Memory) (t rx : BitVec s.profile.width)
    (hm : m = (decmUpTo s (s.engine.ivlen.toNat + payloadOf s)).2)
    (ht : t = finalizeTag (decmUpTo s (s.engine.ivlen.toNat + payloadOf s)).1)
    (hrx : rx = tagFromBytes s.profile
      (memBytes m (byteAddr s.engine.src (s.engine.ivlen.toNat + payloadOf s)) (s.profile.width / 8))) :
    execDecm s = .next { s with engine := closed (decide (rx = t)) false t s.engine, mem := m } := by
  subst hrx hm ht
  rw [execDecm, if_neg (not_frameTooSmall h), if_pos hr, payloadLen_eq]
  simp [decmUpTo, readTag_eq, tagFromBytes, complete_close, beq_eq_decide]

/-- Settles O33: `execDecm` by its guards, and past them the loops cut off at each byte as the sessions and memories. -/
theorem decmGoesByteByByte : Obligations.DecmGoesByteByByte := by
  unfold Obligations.DecmGoesByteByByte
  simp only [exec_decm]
  refine ⟨fun s h => ?_, fun s h hr => ?_, fun s h hsrc hdst => ?_⟩
  · exact execDecm_size ((frameTooSmall_iff s).mpr h)
  · exact execDecm_bus (not_frameTooSmall h) hr
  · refine ⟨fun i => (decmUpTo s i).1, fun i => (decmUpTo s i).2, by simp, by simp, ?_, ?_⟩
    · rintro i - c rfl
      by_cases hlt : i < s.engine.ivlen.toNat
      · simp [decmUpTo_succ_of_lt hlt, hlt]
      · simp [decmUpTo_succ_of_ge hlt, decryptRound, hlt]
    · exact execDecm_done h ⟨hsrc, hdst⟩

end Sys2Proof.Machine

/-! ### `NOP` (R140) -/

namespace Sys2Proof.Machine

theorem exec_nop (s : State) : exec .nop s = execNop s := rfl

/-- Settles O2: `NOP` is dispatched to `execNop`, which hands back the state it is given. -/
theorem nopChangesNothing : Obligations.NopChangesNothing := by
  unfold Obligations.NopChangesNothing
  intro s
  rw [exec_nop, execNop]

end Sys2Proof.Machine

/-! ### The fault each command reports (R150–R157) -/

namespace Sys2Proof.Machine

/-- The code a session command reports where it needs an open session (R154). -/
def sessionFault (s : State) : Err :=
  match s.engine.phase with
  | .idle => .seq
  | .opened => .ok

/-- The code a controller command that uses `regions` reports: the size guard comes first (R157). -/
def guardFault (s : State) (regions : Prop) [Decidable regions] : Err :=
  if FrameFits s then if regions then .ok else .bus else .size

/-- The code command `i` reports in state `s`. -/
def faultOf (s : State) : Instr → Err
  | .nop | .init | .rst => .ok
  | .encb _ | .decb _ | .final => sessionFault s
  | .encs => guardFault s (RegionOK s.mapped s.engine.ivp s.engine.ivlen.toNat)
  | .decs => guardFault s True
  | .encm => guardFault s (EncmRegionsOK s)
  | .decm => guardFault s (DecmRegionsOK s)

/-- A command that reports code `f` either completes, with `ERR = 0`, or raises `f` (R151, R152). -/
inductive Reports (s : State) : Err → Host.Outcome State Fault Refusal → Prop
  | completes (t : State) (ht : t.engine.err = .ok) : Reports s .ok (.next t)
  | raises (f : Err) (hf : f ≠ .ok) : Reports s f (.next (raise f s))

section
variable {s t : State} {f : Err} {x : Host.Outcome State Fault Refusal}

theorem Reports.err_eq (h : Reports s f (.next t)) : t.engine.err = f := by
  cases h with
  | completes _ ht => exact ht
  | raises => rfl

theorem Reports.answers (h : Reports s f x) :
    ∃ t, x = .next t ∧ (t.engine.err = .ok ∨ ∃ f, f ≠ .ok ∧ t = raise f s) := by
  cases h with
  | completes t ht => exact ⟨t, rfl, .inl ht⟩
  | raises f hf => exact ⟨raise f s, rfl, .inr ⟨f, hf, rfl⟩⟩

/-- A session command raises `E_SEQ` while idle and completes while a session is open. -/
theorem reports_sessionFault (hidle : s.engine.phase = .idle → x = .next (raise .seq s))
    (hopen : s.engine.phase = .opened → ∃ t, x = .next t ∧ t.engine.err = .ok) : Reports s (sessionFault s) x := by
  unfold sessionFault
  split
  · next h => rw [hidle h]; exact .raises .seq nofun
  · next h =>
    obtain ⟨t, rfl, ht⟩ := hopen h
    exact .completes t ht

/-- A controller command raises `E_SIZE`, then `E_BUS`, and completes past both guards. -/
theorem reports_guardFault {regions : Prop} [Decidable regions]
    (hsize : frameTooSmall s.engine → x = .next (raise .size s))
    (hbus : ¬ frameTooSmall s.engine → ¬ regions → x = .next (raise .bus s))
    (hdone : FrameFits s → regions → ∃ t, x = .next t ∧ t.engine.err = .ok) : Reports s (guardFault s regions) x := by
  unfold guardFault
  split
  · next hfits =>
    split
    · next hr =>
      obtain ⟨t, rfl, ht⟩ := hdone hfits hr
      exact .completes t ht
    · next hr => rw [hbus (not_frameTooSmall hfits) hr]; exact .raises .bus nofun
  · next hfits => rw [hsize ((frameTooSmall_iff s).mpr hfits)]; exact .raises .size nofun

end

theorem exec_rst (s : State) : exec .rst s = execRst s := rfl

theorem execDecs_completes {s : State} (h : FrameFits s) : ∃ t, execDecs s = .next t ∧ t.engine.err = .ok :=
  ⟨_, execDecs_done h _ _ rfl rfl, rfl⟩

/-- Every command but `NOP` reports the code `faultOf` gives; `NOP` leaves `ERR` as it was (R140). -/
theorem exec_reports {i : Instr} (hi : i ≠ .nop) (s : State) : Reports s (faultOf s i) (exec i s) := by
  cases i with
  | nop => exact absurd rfl hi
  | init => exact .completes _ rfl
  | rst => exact .completes _ rfl
  | encb d => exact reports_sessionFault (execEncb_idle d) fun h => ⟨_, execEncb_opened d h, rfl⟩
  | decb d => exact reports_sessionFault (execDecb_idle d) fun h => ⟨_, execDecb_opened d h, rfl⟩
  | final => exact reports_sessionFault execFinal_idle fun h => ⟨_, execFinal_opened h, rfl⟩
  | encs => exact reports_guardFault execEncs_size execEncs_bus fun h hr => ⟨_, execEncs_done h hr, rfl⟩
  | decs => exact reports_guardFault execDecs_size (fun _ hr => absurd trivial hr) fun h _ => execDecs_completes h
  | encm => exact reports_guardFault execEncm_size execEncm_bus fun h hr => ⟨_, execEncm_done h hr _ rfl, rfl⟩
  | decm =>
    exact reports_guardFault execDecm_size execDecm_bus fun h hr => ⟨_, execDecm_done h hr _ _ _ rfl rfl rfl, rfl⟩

/-- Settles O46: `NOP` answers the state it is given, and every other command completes or raises the code it reports. -/
theorem faultsRewriteStatusOnly : Obligations.FaultsRewriteStatusOnly := by
  unfold Obligations.FaultsRewriteStatusOnly
  intro i s
  by_cases hi : i = .nop
  · subst hi
    exact ⟨s, exec_nop s, fun h => absurd rfl h⟩
  · obtain ⟨t, hx, ht⟩ := (exec_reports hi s).answers
    exact ⟨t, hx, fun _ => ht⟩

/-! ### Which command reports which code, and when (R153–R156) -/

section
variable (s : State) (i : Instr) (regions : Prop) [Decidable regions]

@[simp] theorem sessionFault_eq_seq_iff : sessionFault s = .seq ↔ s.engine.phase = .idle := by
  unfold sessionFault
  split <;> simp [*]

/-- A session command reports `E_SEQ` or nothing. -/
@[simp] theorem sessionFault_ne {f : Err} (hf : f ∉ [.ok, .seq]) : sessionFault s ≠ f := by
  unfold sessionFault
  split <;> rintro rfl <;> simp at hf

@[simp] theorem guardFault_eq_size_iff : guardFault s regions = .size ↔ ¬ FrameFits s := by
  unfold guardFault
  split_ifs with hfits hr <;> simp [hfits]

@[simp] theorem guardFault_eq_bus_iff : guardFault s regions = .bus ↔ FrameFits s ∧ ¬ regions := by
  unfold guardFault
  split_ifs with hfits hr <;> simp [*]

/-- A controller command reports `E_SIZE`, `E_BUS` or nothing. -/
@[simp] theorem guardFault_ne {f : Err} (hf : f ∉ [.ok, .size, .bus]) : guardFault s regions ≠ f := by
  unfold guardFault
  split_ifs <;> rintro rfl <;> simp at hf

/-- `E_ILL` is for illegal words: no command reports it (R153). -/
theorem faultOf_ne_ill : faultOf s i ≠ .ill := by
  cases i <;> simp [faultOf]

theorem faultOf_eq_seq_iff :
    faultOf s i = .seq ↔ s.engine.phase = .idle ∧ (i = .final ∨ ∃ d, i = .encb d ∨ i = .decb d) := by
  cases i <;> simp [faultOf]

theorem faultOf_eq_size_iff : faultOf s i = .size ↔ i ∈ [Instr.encs, .decs, .encm, .decm] ∧ ¬ FrameFits s := by
  cases i <;> simp [faultOf]

theorem faultOf_eq_bus_iff :
    faultOf s i = .bus ↔ FrameFits s ∧
      ((i = .encs ∧ ¬ RegionOK s.mapped s.engine.ivp s.engine.ivlen.toNat) ∨ (i = .encm ∧ ¬ EncmRegionsOK s) ∨
        (i = .decm ∧ ¬ DecmRegionsOK s)) := by
  cases i <;> simp [faultOf]

end

/-- Settles O47: the code a command leaves in `ERR` is the one it reports, and each code has its own causes. -/
theorem eachFaultHasItsCause : Obligations.EachFaultHasItsCause := by
  unfold Obligations.EachFaultHasItsCause
  intro i s t hi hexec
  have herr : t.engine.err = faultOf s i := (hexec ▸ exec_reports hi s).err_eq
  rw [herr]
  exact ⟨faultOf_ne_ill s i, faultOf_eq_seq_iff s i, faultOf_eq_size_iff s i, faultOf_eq_bus_iff s i⟩

/-! ### The guards of the controller commands (R155, R156) -/

/-- Settles O28: the size guard of each command comes before everything else it does. -/
theorem tooSmallFrameRaisesESize : Obligations.TooSmallFrameRaisesESize := by
  unfold Obligations.TooSmallFrameRaisesESize
  intro s hsmall
  simp only [List.forall_mem_cons, exec_encs, exec_decs, exec_encm, exec_decm]
  exact ⟨execEncs_size hsmall, execDecs_size hsmall, execEncm_size hsmall, execDecm_size hsmall, nofun⟩

theorem regionOK_zero (mapped : List AddrRange) (base : Addr) : RegionOK mapped base 0 := .inl rfl

/-- Settles O29: past the size guard, each command by the guard of its own regions; `DECS` has none and completes. -/
theorem badRegionRaisesEBus : Obligations.BadRegionRaisesEBus := by
  unfold Obligations.BadRegionRaisesEBus
  intro s h
  simp only [exec_encs, exec_decs, exec_encm, exec_decm]
  have hfits := not_frameTooSmall h
  exact ⟨execEncs_bus hfits, execEncm_bus hfits, execDecm_bus hfits, execDecs_completes h, regionOK_zero s.mapped⟩

/-! ### Short reads (R159) -/

theorem frameOf_length {p : Profile} (k : BitVec p.width) (iv payload : List Byte) :
    (frameOf k iv payload).length = iv.length + payload.length + p.tagw := by
  simp [frameOf, cipherOf]

/-- `ENCS` with too few source bytes: the frame is that of the bytes there were. -/
theorem execEncs_short {s : State} (h : FrameFits s) (hr : RegionOK s.mapped s.engine.ivp s.engine.ivlen.toNat)
    (hshort : s.source.length < payloadOf s) :
    execEncs s = .next { s with
      engine := closed false true (tagOf s.engine.key (ivBytes s ++ s.source)) s.engine
      source := []
      sink := s.sink ++ frameOf s.engine.key (ivBytes s) s.source } := by
  rw [execEncs_done h hr, List.take_of_length_le hshort.le, List.drop_eq_nil_of_le hshort.le, decide_eq_true hshort]

/-- `DECS` with too few source bytes: the plain bytes of those there were, and no valid tag. -/
theorem execDecs_short {s : State} (h : FrameFits s) (hshort : s.source.length < s.engine.len.toNat) (body : List Byte)
    (hbody : body = s.source.take (s.engine.ivlen.toNat + payloadOf s)) :
    execDecs s = .next { s with
      engine := closed false true (tagOfCipher s.engine.key body) s.engine
      source := []
      sink := s.sink ++ (plainOf s.engine.key body).drop s.engine.ivlen.toNat } := by
  rw [execDecs_done h body _ hbody rfl, List.drop_eq_nil_of_le hshort.le, decide_eq_true hshort,
    decide_eq_false fun hvalid => hshort.not_ge hvalid.1]

/-- Settles O45: the next states of `ENCS` and `DECS` past their guards, where the source holds fewer bytes than they
take. -/
theorem shortReadIsNoFault : Obligations.ShortReadIsNoFault := by
  unfold Obligations.ShortReadIsNoFault
  intro s h
  refine ⟨fun hr hshort => ?_, fun hshort => ?_⟩
  · refine ⟨_, _, execEncs_short h hr hshort, ?_, rfl, rfl, rfl, rfl, rfl⟩
    rw [frameOf_length, memBytes_length]
  · exact ⟨_, _, execDecs_short h hshort _ rfl, rfl, rfl, rfl, rfl, rfl⟩

end Sys2Proof.Machine


/-! ### Command words by their fields (R60–R65) -/

namespace Sys2Proof

/-- Field `Z0`, bits 7:4 (R60). -/
def z0Field (c : Word32) : BitVec 4 := c.extractLsb' 4 4

/-- Field `Z1`, bits 31:16 (R60). -/
def z1Field (c : Word32) : BitVec 16 := c.extractLsb' 16 16

/-- A word is its four fields, in the order in which `encode` puts them. -/
theorem word_eq_fields (c : Word32) : z1Field c ++ dataField c ++ z0Field c ++ opField c = c := by
  have hdata : z1Field c ++ dataField c = c.extractLsb' 8 24 :=
    BitVec.extractLsb'_append_extractLsb'_eq_extractLsb' rfl
  have hz0 : c.extractLsb' 8 24 ++ z0Field c = c.extractLsb' 4 28 :=
    BitVec.extractLsb'_append_extractLsb'_eq_extractLsb' rfl
  rw [hdata, hz0]
  exact BitVec.extractLsb'_append_extractLsb' (w := 28)

theorem append_eq_zero_iff {v w : Nat} (x : BitVec v) (y : BitVec w) : x ++ y = 0#(v + w) ↔ x = 0#v ∧ y = 0#w := by
  simp only [← BitVec.toNat_inj, BitVec.toNat_append, BitVec.toNat_zero, Nat.or_eq_zero_iff,
    Nat.shiftLeft_eq_zero_iff]

/-- A mask put together from four parts tests each field by its own part. -/
theorem fields_and_eq_zero_iff (c : Word32) (m₁ : BitVec 16) (m₂ : BitVec 8) (m₃ m₄ : BitVec 4) :
    c &&& (m₁ ++ m₂ ++ m₃ ++ m₄) = 0#32 ↔
      ((z1Field c &&& m₁ = 0#16 ∧ dataField c &&& m₂ = 0#8) ∧ z0Field c &&& m₃ = 0#4) ∧ opField c &&& m₄ = 0#4 := by
  rw [← append_eq_zero_iff, ← append_eq_zero_iff, ← append_eq_zero_iff, ← BitVec.and_append, ← BitVec.and_append,
    ← BitVec.and_append, word_eq_fields]

/-- No reserved bit is set exactly if `Z1` and `Z0` are 0. -/
theorem reserved_eq_zero_iff (c : Word32) : c &&& reservedMask = 0#32 ↔ z1Field c = 0#16 ∧ z0Field c = 0#4 := by
  have hmask : reservedMask = BitVec.allOnes 16 ++ 0#8 ++ BitVec.allOnes 4 ++ 0#4 := by decide
  rw [hmask, fields_and_eq_zero_iff]
  simp [-BitVec.reduceAllOnes]

/-- A format-N word has no reserved bit set and `DATA = 0` (R61). -/
theorem formatN_eq_zero_iff (c : Word32) :
    c &&& formatNMask = 0#32 ↔ c &&& reservedMask = 0#32 ∧ dataField c = 0x00#8 := by
  have hmask : formatNMask = BitVec.allOnes 16 ++ BitVec.allOnes 8 ++ BitVec.allOnes 4 ++ 0#4 := by decide
  rw [reserved_eq_zero_iff, hmask, fields_and_eq_zero_iff]
  simp [and_right_comm, -BitVec.reduceAllOnes]

theorem decodeN_eq_ok_iff {c : Word32} {i j : Instr} :
    decodeN c i = .ok j ↔ (c &&& reservedMask = 0#32 ∧ dataField c = 0x00#8) ∧ i = j := by
  rw [← formatN_eq_zero_iff]
  unfold decodeN
  split_ifs <;> simp [*]

theorem decodeB_eq_ok_iff {c : Word32} {f : Byte → Instr} {j : Instr} :
    decodeB c f = .ok j ↔ c &&& reservedMask = 0#32 ∧ f (dataField c) = j := by
  unfold decodeB
  split_ifs <;> simp [*]

/-- A word stands for the command with its opcode and its data byte, if no reserved bit is set (R60–R63). -/
theorem decode_eq_ok_iff {c : Word32} {i : Instr} :
    decode c = .ok i ↔ opField c = i.opcode ∧ dataField c = i.dataByte ∧ c &&& reservedMask = 0#32 := by
  constructor
  · intro h
    unfold decode at h
    split at h <;> rename_i hop
    case h_11 => cases h
    case h_3 | h_4 =>
      obtain ⟨hz, rfl⟩ := decodeB_eq_ok_iff.mp h
      exact ⟨BitVec.eq_of_toNat_eq hop, rfl, hz⟩
    all_goals
      obtain ⟨⟨hz, hd⟩, rfl⟩ := decodeN_eq_ok_iff.mp h
      exact ⟨BitVec.eq_of_toNat_eq hop, hd, hz⟩
  · rintro ⟨hop, hd, hz⟩
    cases i <;>
      simp [decode, hop, Instr.opcode, decodeN_eq_ok_iff, decodeB_eq_ok_iff, hd, hz, Instr.dataByte]

/-- The fields of every command's word. -/
theorem encode_fields (i : Instr) : Laws.EncodedFields.Statement i := by
  cases i with
  | nop => exact Laws.EncodedFields.nop
  | init => exact Laws.EncodedFields.init
  | encb d => exact Laws.EncodedFields.encb d
  | decb d => exact Laws.EncodedFields.decb d
  | final => exact Laws.EncodedFields.final
  | encs => exact Laws.EncodedFields.encs
  | decs => exact Laws.EncodedFields.decs
  | encm => exact Laws.EncodedFields.encm
  | decm => exact Laws.EncodedFields.decm
  | rst => exact Laws.EncodedFields.rst

theorem decode_encode (i : Instr) : decode (encode i) = .ok i := decode_eq_ok_iff.mpr (encode_fields i)

/-- A legal word is put together from its opcode and its data byte alone. -/
theorem encode_of_decode {c : Word32} {i : Instr} (h : decode c = .ok i) : encode i = c := by
  obtain ⟨hop, hd, hz⟩ := decode_eq_ok_iff.mp h
  obtain ⟨hz1, hz0⟩ := (reserved_eq_zero_iff c).mp hz
  rw [encode, ← hop, ← hd]
  conv_rhs => rw [← word_eq_fields c, hz1, hz0]

/-- Settles O7: a word is legal exactly if its fields are a command's, and a command's word has that command's
fields. -/
theorem decodeAndEncodeAgree : Obligations.DecodeAndEncodeAgree := by
  unfold Obligations.DecodeAndEncodeAgree
  exact ⟨decode_encode, fun _ _ => encode_of_decode⟩

/-! ### How many words are legal -/

/-- The commands: eight without an operand, and two with a data byte. -/
def instrEquiv : Instr ≃ Fin 8 ⊕ Byte ⊕ Byte where
  toFun
    | .nop => .inl 0
    | .init => .inl 1
    | .final => .inl 2
    | .encs => .inl 3
    | .decs => .inl 4
    | .encm => .inl 5
    | .decm => .inl 6
    | .rst => .inl 7
    | .encb d => .inr (.inl d)
    | .decb d => .inr (.inr d)
  invFun
    | .inl 0 => .nop
    | .inl 1 => .init
    | .inl 2 => .final
    | .inl 3 => .encs
    | .inl 4 => .decs
    | .inl 5 => .encm
    | .inl 6 => .decm
    | .inl 7 => .rst
    | .inr (.inl d) => .encb d
    | .inr (.inr d) => .decb d
  left_inv i := by cases i <;> rfl
  right_inv
    | .inl k => by fin_cases k <;> rfl
    | .inr (.inl _) => rfl
    | .inr (.inr _) => rfl

theorem card_byte : Nat.card Byte = 256 := (Nat.card_congr BitVec.equivFin.toEquiv).trans (Nat.card_fin _)

theorem card_instr : Nat.card Instr = 8 + 2 * 256 := by
  rw [Nat.card_congr instrEquiv, Nat.card_sum, Nat.card_sum, card_byte, Nat.card_fin]

theorem encode_injective : Function.Injective encode := fun i j h =>
  Except.ok.inj ((decode_encode i).symm.trans ((congrArg decode h).trans (decode_encode j)))

/-- The legal words are the words of the commands. -/
theorem legalWords_eq_range_encode : {c : Word32 | ∃ i, decode c = .ok i} = Set.range encode :=
  Set.ext fun _ => ⟨fun ⟨i, h⟩ => ⟨i, encode_of_decode h⟩, fun ⟨i, h⟩ => ⟨i, h ▸ decode_encode i⟩⟩

/-- Settles O9: `encode` numbers the legal words by the commands. -/
theorem legalWordsNumber520 : Obligations.LegalWordsNumber520 := by
  unfold Obligations.LegalWordsNumber520
  rw [legalWords_eq_range_encode, Set.ncard_range_of_injective encode_injective, card_instr]

/-- Settles O8: each word is a command's, by running the decoder. -/
theorem specWordsDecode : Obligations.SpecWordsDecode := by
  unfold Obligations.SpecWordsDecode
  decide

end Sys2Proof

/-! ### The word written to `CMD` (R64, R142, R153) -/

namespace Sys2Proof.Machine

section
variable {s : State} {c : Word32} {rest : List Input}

theorem toNat_opField (c : Word32) : (opField c).toNat = c.toNat % 16 := by
  simp [opField, BitVec.extractLsb'_toNat]

theorem dataField_eq_zero_iff (c : Word32) : dataField c = 0x00#8 ↔ c.toNat / 2 ^ 8 % 256 = 0 := by
  simp [dataField, ← BitVec.toNat_inj, BitVec.extractLsb'_toNat, Nat.shiftRight_eq_div_pow]

theorem reserved_eq_zero_iff_toNat (c : Word32) :
    c &&& reservedMask = 0#32 ↔ c.toNat / 2 ^ 16 = 0 ∧ c.toNat / 2 ^ 4 % 16 = 0 := by
  have hbound : c.toNat / 2 ^ 16 % 2 ^ 16 = c.toNat / 2 ^ 16 := Nat.mod_eq_of_lt (by omega)
  rw [reserved_eq_zero_iff, ← BitVec.toNat_inj, ← BitVec.toNat_inj]
  simp only [z1Field, z0Field, BitVec.extractLsb'_toNat, Nat.shiftRight_eq_div_pow, BitVec.toNat_zero, hbound]

/-- A word is illegal by its opcode, by a reserved bit, or by data that its command does not take (R64). -/
theorem illegalWord_iff :
    IllegalWord c ↔ 9 < (opField c).toNat ∨ ¬ c &&& reservedMask = 0#32 ∨
      (¬ dataField c = 0x00#8 ∧ (opField c).toNat ≠ 2 ∧ (opField c).toNat ≠ 3) := by
  rw [reserved_eq_zero_iff_toNat, dataField_eq_zero_iff, toNat_opField]
  tauto

/-- A word is a command exactly if it is not illegal (R64). -/
theorem exists_decode_iff : (∃ i, decode c = .ok i) ↔ ¬ IllegalWord c := by
  rw [illegalWord_iff]
  unfold decode
  split
  case h_11 =>
    have hop : 9 < (opField c).toNat := by
      simp only [imp_false] at *
      omega
    simp [hop]
  all_goals
    rename_i hop
    simp [decodeN_eq_ok_iff, decodeB_eq_ok_iff, hop]

/-- A write of `CMD` runs the word on the state with the access taken and recorded (R142). -/
theorem step_cmd (h : s.inputs = .hostWrite 0x00#8 c :: rest) :
    step s = runCommand c { s with inputs := rest, trace := s.trace ++ [⟨.write, 0x00#8, c⟩] } :=
  step_input h

end

/-- Settles O3: the step takes the access, and its word is legal. -/
theorem stepRunsDecodedCommand : Obligations.StepRunsDecodedCommand := by
  unfold Obligations.StepRunsDecodedCommand
  intro s c rest i hin hdec
  rw [step_cmd hin, runCommand_legal hdec]

/-- Settles O10: a word that is no command is one the decoder rejects, for whatever reason. -/
theorem illegalWordRaisesEIll : Obligations.IllegalWordRaisesEIll := by
  unfold Obligations.IllegalWordRaisesEIll
  intro s c rest hin
  refine ⟨fun hill => ?_, exists_decode_iff.mpr⟩
  cases hdec : decode c with
  | ok i => exact absurd hill (exists_decode_iff.mp ⟨i, hdec⟩)
  | error e => rw [step_cmd hin, runCommand_illegal hdec]

/-! ### A host write of an operand register (R142) -/

section
variable {p : Profile} (off : HostOffset) (v : Word32) (e : Engine p)

/-- Which register a host write other than to `CMD` changes. -/
theorem writeOperand_cases :
    (off = 0x08#8 ∧ writeOperand off v e = { e with key := writeKeyLow e.key v }) ∨
      (off = 0x0C#8 ∧ writeOperand off v e = { e with key := writeKeyHigh e.key v }) ∨
      (off = 0x10#8 ∧ writeOperand off v e = { e with len := v }) ∨
      (off = 0x14#8 ∧ writeOperand off v e = { e with ivlen := v }) ∨
      (off = 0x18#8 ∧ writeOperand off v e = { e with src := v }) ∨
      (off = 0x1C#8 ∧ writeOperand off v e = { e with dst := v }) ∨
      (off = 0x20#8 ∧ writeOperand off v e = { e with ivp := v }) ∨
      (off ∉ [0x08#8, 0x0C#8, 0x10#8, 0x14#8, 0x18#8, 0x1C#8, 0x20#8] ∧ writeOperand off v e = e) := by
  unfold writeOperand
  split <;> simp_all [← BitVec.toNat_inj]

theorem toNat_writeKeyLow (k : BitVec p.width) :
    (writeKeyLow k v).toNat = k.toNat / 2 ^ 32 * 2 ^ 32 + v.toNat := by
  cases p with
  | w32 =>
    have hk : k.toNat / 2 ^ 32 = 0 := Nat.div_eq_of_lt k.isLt
    rw [hk, Nat.zero_mul, Nat.zero_add]
    rfl
  | w64 =>
    have hk : k.toNat / 2 ^ 32 % 2 ^ 32 = k.toNat / 2 ^ 32 := Nat.mod_eq_of_lt (Nat.div_lt_of_lt_mul k.isLt)
    rw [writeKeyLow, BitVec.toNat_append, ← Nat.shiftLeft_add_eq_or_of_lt v.isLt, BitVec.extractLsb'_toNat,
      Nat.shiftRight_eq_div_pow, hk, Nat.shiftLeft_eq]

theorem toNat_writeKeyHigh (k : BitVec p.width) :
    (writeKeyHigh k v).toNat = if p = .w64 then v.toNat * 2 ^ 32 + k.toNat % 2 ^ 32 else k.toNat := by
  cases p with
  | w32 => rfl
  | w64 =>
    rw [writeKeyHigh, BitVec.toNat_append, ← Nat.shiftLeft_add_eq_or_of_lt (BitVec.isLt _), BitVec.extractLsb'_toNat,
      Nat.shiftLeft_eq]
    rfl

theorem writeOperand_key :
    (writeOperand off v e).key.toNat =
      if off = 0x08#8 then e.key.toNat / 2 ^ 32 * 2 ^ 32 + v.toNat
      else if off = 0x0C#8 ∧ p = .w64 then v.toNat * 2 ^ 32 + e.key.toNat % 2 ^ 32 else e.key.toNat := by
  rcases writeOperand_cases off v e with
    ⟨rfl, h⟩ | ⟨rfl, h⟩ | ⟨rfl, h⟩ | ⟨rfl, h⟩ | ⟨rfl, h⟩ | ⟨rfl, h⟩ | ⟨rfl, h⟩ | ⟨hoff, h⟩
  all_goals simp_all [toNat_writeKeyLow, toNat_writeKeyHigh]

/-- Each of the other operand registers takes the value at its own offset and keeps its own at every other one. -/
theorem writeOperand_registers :
    (writeOperand off v e).len = (if off = 0x10#8 then v else e.len) ∧
      (writeOperand off v e).ivlen = (if off = 0x14#8 then v else e.ivlen) ∧
      (writeOperand off v e).src = (if off = 0x18#8 then v else e.src) ∧
      (writeOperand off v e).dst = (if off = 0x1C#8 then v else e.dst) ∧
      (writeOperand off v e).ivp = (if off = 0x20#8 then v else e.ivp) := by
  rcases writeOperand_cases off v e with
    ⟨rfl, h⟩ | ⟨rfl, h⟩ | ⟨rfl, h⟩ | ⟨rfl, h⟩ | ⟨rfl, h⟩ | ⟨rfl, h⟩ | ⟨rfl, h⟩ | ⟨hoff, h⟩
  all_goals simp_all

end

theorem offset_wf {off : HostOffset} (h : off.toNat % 4 = 0) : off.wf = true := by simp [HostOffset.wf, h]

/-- A write at any other offset changes operand registers only, on the state with the access taken and recorded. -/
theorem step_operand {s : State} {off : HostOffset} {v : Word32} {rest : List Input}
    (hin : s.inputs = .hostWrite off v :: rest) (haligned : off.toNat % 4 = 0) (h0 : off ≠ 0x00#8) :
    step s = .next { s with
      engine := writeOperand off v s.engine
      inputs := rest
      trace := s.trace ++ [⟨.write, off, v⟩] } :=
  (step_input hin).trans (hostWrite_operand v (offset_wf haligned) h0)

/-- Settles O12: at offset 0 the word runs; at every other offset the operand write that its offset names. -/
theorem hostWriteFollowsTheRegisterMap : Obligations.HostWriteFollowsTheRegisterMap := by
  unfold Obligations.HostWriteFollowsTheRegisterMap
  intro s off v rest hin haligned
  constructor
  · rintro rfl
    rw [step_cmd hin]
    exact ⟨fun i => runCommand_legal, fun err => runCommand_illegal⟩
  · intro h0
    refine ⟨(writeOperand off v s.engine).key, _, _, _, _, _, ?_, writeOperand_key off v s.engine,
      writeOperand_registers off v s.engine⟩
    rw [step_operand hin haligned h0]
    conv_lhs => rw [writeOperand_frame]

end Sys2Proof.Machine

/-! ### Host reads and `STATUS` (R25, R28, R143) -/

namespace Sys2Proof.Machine

section
variable {p : Profile}

theorem toNat_tagoutLow (t : BitVec p.width) : (tagoutLow t).toNat = t.toNat % 2 ^ 32 := by
  rw [tagoutLow, BitVec.extractLsb'_toNat, Nat.shiftRight_zero]

theorem toNat_tagoutHigh (t : BitVec p.width) : (tagoutHigh t).toNat = t.toNat / 2 ^ 32 := by
  cases p with
  | w32 => exact (Nat.div_eq_of_lt t.isLt).symm
  | w64 =>
    rw [tagoutHigh, BitVec.extractLsb'_toNat, Nat.shiftRight_eq_div_pow]
    exact Nat.mod_eq_of_lt (Nat.div_lt_of_lt_mul t.isLt)

theorem toNat_idWord (p : Profile) : (idWord p).toNat = p.width := by cases p <;> rfl

theorem toNat_hostReadValue (off : HostOffset) (s : State) :
    (hostReadValue off s).toNat =
      if off = 0x04#8 then (statusWord s.engine).toNat
      else if off = 0x10#8 then s.engine.len.toNat
      else if off = 0x14#8 then s.engine.ivlen.toNat
      else if off = 0x18#8 then s.engine.src.toNat
      else if off = 0x1C#8 then s.engine.dst.toNat
      else if off = 0x20#8 then s.engine.ivp.toNat
      else if off = 0x24#8 then s.engine.dout.toNat
      else if off = 0x28#8 then s.engine.tagout.toNat % 2 ^ 32
      else if off = 0x2C#8 then s.engine.tagout.toNat / 2 ^ 32
      else if off = 0x30#8 then s.profile.width
      else 0 := by
  have hdout : s.engine.dout.toNat < 4294967296 := by omega
  simp only [← BitVec.toNat_inj (x := off)]
  unfold hostReadValue
  split <;> simp_all [toNat_tagoutLow, toNat_tagoutHigh, toNat_idWord]

end

/-- Settles O13: the value that goes into the record is the register's, and nothing else changes. -/
theorem hostReadReturnsTheRegister : Obligations.HostReadReturnsTheRegister := by
  unfold Obligations.HostReadReturnsTheRegister
  intro s off rest hin haligned
  exact ⟨hostReadValue off s, (step_input hin).trans (hostRead_aligned (offset_wf haligned)), toNat_hostReadValue off s⟩

/-- Settles O15: no case of `hostReadValue` names the key or a session register. -/
theorem hostReadsRevealNoSecret : Obligations.HostReadsRevealNoSecret := by
  unfold Obligations.HostReadsRevealNoSecret
  intro s key ss off
  rfl

theorem toNat_append_eq_add {v w : Nat} (x : BitVec v) (y : BitVec w) : (x ++ y).toNat = x.toNat * 2 ^ w + y.toNat := by
  rw [BitVec.toNat_append, ← Nat.shiftLeft_add_eq_or_of_lt y.isLt, Nat.shiftLeft_eq]

/-- Settles O14: the word is the fields one above the other, the lowest one `PHASE`. -/
theorem statusFieldsStandAtTheirBits : Obligations.StatusFieldsStandAtTheirBits := by
  unfold Obligations.StatusFieldsStandAtTheirBits
  intro p e
  simp only [statusWord, toNat_append_eq_add, BitVec.toNat_ofBool, BitVec.toNat_zero]
  cases e.phase <;> cases e.err <;> simp only [Phase.bit, Err.code, BitVec.toNat_ofNat] <;> omega

/-! ### Reset and the environment (R31, R46, R170, R172) -/

theorem statusWord_reset (p : Profile) : statusWord (Engine.reset p) = 0x00000000#32 := by
  simp [statusWord, Phase.bit, Err.code]

/-- Settles O1: both put the engine at the reset table, whose `STATUS` is all 0. -/
theorem resetZeroesEveryRegister : Obligations.ResetZeroesEveryRegister := by
  unfold Obligations.ResetZeroesEveryRegister
  intro s
  refine ⟨Engine.reset s.profile, rfl, rfl, fun _ _ _ => rfl, rfl, rfl, rfl, rfl, rfl, rfl, rfl, rfl, rfl, rfl, rfl,
    rfl, rfl, rfl, statusWord_reset s.profile, toNat_idWord s.profile⟩

/-- Settles O6: the two inputs of the environment, and what a read sees after a byte is written. -/
theorem environmentTouchesOnlyItsSpace : Obligations.EnvironmentTouchesOnlyItsSpace := by
  unfold Obligations.EnvironmentTouchesOnlyItsSpace
  intro s rest
  refine ⟨fun bytes hin => step_input hin, fun a v hin => ⟨Memory.write s.mem a v, step_input hin, fun b => ?_⟩⟩
  rw [read_write]
  simp only [eq_comm]

/-! ### What stops a step (R28) -/

/-- Every command answers a next state (R151). -/
theorem exec_next (i : Instr) (s : State) : ∃ t, exec i s = .next t := by
  obtain ⟨t, ht, _⟩ := faultsRewriteStatusOnly i s
  exact ⟨t, ht⟩

theorem runCommand_next (c : Word32) (s : State) : ∃ t, runCommand c s = .next t := by
  cases hdec : decode c with
  | ok i => rw [runCommand_legal hdec]; exact exec_next i s
  | error e => exact ⟨_, runCommand_illegal hdec⟩

theorem hostWrite_next {off : HostOffset} (h : off.wf = true) (v : Word32) (s : State) :
    ∃ t, hostWrite off v s = .next t := by
  by_cases h0 : off = 0x00#8
  · subst h0
    exact runCommand_next v _
  · exact ⟨_, hostWrite_operand v h h0⟩

/-- An input that is no host access of an unaligned offset. -/
def aligned : Input → Bool
  | .hostWrite off _ => off.wf
  | .hostRead off => off.wf
  | .hardReset | .setSource _ | .placeByte _ _ => true

theorem offset_wf_eq_false_iff (off : HostOffset) : off.wf = false ↔ off.toNat % 4 ≠ 0 := by simp [HostOffset.wf]

theorem aligned_eq_false_iff (inp : Input) :
    aligned inp = false ↔
      ∃ off : HostOffset, off.toNat % 4 ≠ 0 ∧ ((∃ v, inp = .hostWrite off v) ∨ inp = .hostRead off) := by
  cases inp <;> simp [aligned, offset_wf_eq_false_iff]

/-- An aligned input answers a next state, in every state. -/
theorem applyInput_aligned {inp : Input} (h : aligned inp = true) (s : State) : ∃ t, applyInput inp s = .next t := by
  cases inp with
  | hostWrite off v => exact hostWrite_next h v s
  | hostRead off => exact ⟨_, hostRead_aligned h⟩
  | hardReset => exact ⟨_, rfl⟩
  | setSource bytes => exact ⟨_, rfl⟩
  | placeByte a v => exact ⟨_, rfl⟩

theorem applyInput_unaligned {inp : Input} (h : aligned inp = false) (s : State) :
    applyInput inp s = .fault .hostAccessUnaligned := by
  cases inp with
  | hostWrite off v => exact hostWrite_unaligned v h
  | hostRead off => exact hostRead_unaligned h
  | hardReset => cases h
  | setSource bytes => cases h
  | placeByte a v => cases h

theorem step_idle {s : State} (h : s.inputs = []) : step s = .next s := by simp [step, h]

/-- The next access is not aligned, in the words of the statement. -/
theorem unaligned_head_iff (inp : Input) (rest : List Input) :
    (∃ (off : HostOffset) (rest' : List Input), off.toNat % 4 ≠ 0 ∧
      ((∃ v, inp :: rest = .hostWrite off v :: rest') ∨ inp :: rest = .hostRead off :: rest')) ↔
        aligned inp = false := by
  simp [aligned_eq_false_iff, ← or_and_right]

/-- Settles O4: a step is the idle one, or an aligned input's next state, or an unaligned one's fault. -/
theorem stepStopsOnlyOnUnalignedAccess : Obligations.StepStopsOnlyOnUnalignedAccess := by
  unfold Obligations.StepStopsOnlyOnUnalignedAccess
  intro s
  refine ⟨step_idle, ?_⟩
  cases hin : s.inputs with
  | nil => simp [step_idle hin]
  | cons inp rest =>
    rw [step_input hin]
    simp only [unaligned_head_iff]
    cases hal : aligned inp with
    | true =>
      obtain ⟨t, ht⟩ := applyInput_aligned hal { s with inputs := rest }
      simp [ht]
    | false =>
      rw [applyInput_unaligned hal]
      exact ⟨fun f => by cases f; simp, nofun⟩

end Sys2Proof.Machine

/-! ### What every step keeps -/

namespace Sys2Proof.Machine

section
variable {s t : State} {i : Instr} {inp : Input}

/-- A step that answers a next state is the idle one or takes the next input. -/
theorem step_cases (h : step s = .next t) :
    (s.inputs = [] ∧ t = s) ∨
      ∃ inp rest, s.inputs = inp :: rest ∧ applyInput inp { s with inputs := rest } = .next t := by
  cases hin : s.inputs with
  | nil => rw [step_idle hin] at h; cases h; exact .inl ⟨rfl, rfl⟩
  | cons inp rest => rw [step_input hin] at h; exact .inr ⟨inp, rest, rfl, h⟩

/-- What every input keeps, every step keeps: a step takes an input, with a shorter list of inputs to come. -/
theorem step_keeps {P : State → Prop} (hinputs : ∀ s rest, P s → P { s with inputs := rest })
    (happly : ∀ inp s t, P s → applyInput inp s = .next t → P t) (hs : P s) (h : step s = .next t) : P t := by
  rcases step_cases h with ⟨-, rfl⟩ | ⟨inp, rest, -, h⟩
  · exact hs
  · exact happly inp _ t (hinputs s rest hs) h

/-! ### The parameters of the build (R6, R7) -/

theorem exec_params (h : exec i s = .next t) : t.profile = s.profile ∧ t.mapped = s.mapped := by
  cases exec_ran h <;> exact ⟨rfl, rfl⟩

theorem applyInput_params (h : applyInput inp s = .next t) : t.profile = s.profile ∧ t.mapped = s.mapped := by
  rcases applyInput_cases h with ⟨c, i, -, -, h⟩ | ⟨c, e, -, -, rfl⟩ | ⟨off, v, -, -, rfl⟩ | ⟨off, -, rfl⟩ | ⟨-, rfl⟩ |
    ⟨bs, -, rfl⟩ | ⟨a, v, -, rfl⟩
  · exact exec_params (s := record .write 0x00#8 c s) h
  all_goals exact ⟨rfl, rfl⟩

end

/-- Settles O5: no input changes a parameter, so no step does. -/
theorem buildParametersNeverChange : Obligations.BuildParametersNeverChange := by
  unfold Obligations.BuildParametersNeverChange
  intro s t
  refine step_keeps (P := fun u => u.profile = s.profile ∧ u.mapped = s.mapped) (fun _ _ hu => hu) ?_ ⟨rfl, rfl⟩
  rintro inp u u' ⟨hp, hm⟩ h
  obtain ⟨hp', hm'⟩ := applyInput_params h
  exact ⟨hp'.trans hp, hm'.trans hm⟩

/-! ### The invariant (R21, R31, R90, R94, R151) -/

section
variable {p : Profile} {e : Engine p}

theorem reset_engineInv (p : Profile) : EngineInv (Engine.reset p) :=
  ⟨⟨rfl, Nat.zero_le _⟩, fun _ => rfl, nofun, nofun, nofun⟩

/-- A fault rewrites `STATUS` as the invariant asks. -/
theorem EngineInv.raise (h : EngineInv e) (f : Err) :
    EngineInv { e with err := f, valid := false, short := false, eflag := true } :=
  ⟨h.cursor, h.idle, h.pads, fun _ => ⟨rfl, rfl, rfl⟩, nofun⟩

theorem writeOperand_eflag (off : HostOffset) (v : Word32) (e : Engine p) : (writeOperand off v e).eflag = e.eflag := by
  rw [writeOperand_frame]

theorem EngineInv.writeOperand (h : EngineInv e) (off : HostOffset) (v : Word32) :
    EngineInv (writeOperand off v e) := by
  rw [writeOperand_frame]
  exact ⟨h.cursor, h.idle, h.pads, h.faulted, h.whole⟩

/-- Completion with a session that is open and has the pads of one key. -/
theorem engineInv_complete_opened (hcur : CursorLegal p e.session.cur) (hphase : e.phase = .opened)
    (hpads : e.session.ipad ^^^ e.session.opad = p.ipadC ^^^ p.opadC) : EngineInv (complete false false e) :=
  ⟨hcur, fun hidle => absurd (hphase.symm.trans hidle) nofun, fun _ => hpads, fun herr => absurd rfl herr, nofun⟩

/-- The pads of a fresh session come from one key. -/
theorem initSession_pads (k : BitVec p.width) :
    (initSession k).ipad ^^^ (initSession k).opad = p.ipadC ^^^ p.opadC := by
  rw [initSession, BitVec.xor_comm k p.ipadC, BitVec.xor_assoc, ← BitVec.xor_assoc k, BitVec.xor_self, BitVec.zero_xor]

theorem engineInv_init (e : Engine p) :
    EngineInv (complete false false { e with session := initSession e.key, phase := .opened }) :=
  engineInv_complete_opened ⟨rfl, Nat.zero_le _⟩ rfl (initSession_pads _)

theorem EngineInv.byteStep (h : EngineInv e) (hopen : e.phase = .opened) (plain out : Byte) :
    EngineInv (complete false false { e with session := absorb e.session plain, dout := out }) :=
  engineInv_complete_opened (nextCursor_legal h.cursor) hopen (h.pads hopen)

theorem engineInv_done (e : Engine p) (tag : BitVec p.width) {valid short : Bool} (hv : valid = true → short = false) :
    EngineInv (complete valid short (close tag e)) :=
  ⟨⟨rfl, Nat.zero_le _⟩, fun _ => rfl, nofun, fun herr => absurd rfl herr, hv⟩

end

section
variable {s t : State} {i : Instr} {inp : Input}

/-- Every command keeps the invariant, by the shape of its next state. -/
theorem exec_inv (hs : Inv s) (h : exec i s = .next t) : Inv t := by
  obtain ⟨hmem, heng⟩ := hs
  cases exec_ran h with
  | nop => exact ⟨hmem, heng⟩
  | rst => exact ⟨hmem, reset_engineInv _⟩
  | fault i hi f hf => exact ⟨hmem, heng.raise f⟩
  | init => exact ⟨hmem, engineInv_init _⟩
  | byteStep i d plain out hi hp => exact ⟨hmem, heng.byteStep hp plain out⟩
  | done i hi valid short tag m src snk hm hmem' hport hv => exact ⟨hm hmem, engineInv_done _ tag hv⟩

theorem applyInput_inv (hs : Inv s) (h : applyInput inp s = .next t) : Inv t := by
  rcases applyInput_cases h with ⟨c, i, -, -, h⟩ | ⟨c, e, -, -, rfl⟩ | ⟨off, v, -, -, rfl⟩ | ⟨off, -, rfl⟩ | ⟨-, rfl⟩ |
    ⟨bs, -, rfl⟩ | ⟨a, v, -, rfl⟩
  · exact exec_inv (s := record .write 0x00#8 c s) ⟨hs.mem, hs.engine⟩ h
  · exact ⟨hs.mem, hs.engine.raise .ill⟩
  · exact ⟨hs.mem, hs.engine.writeOperand off v⟩
  · exact ⟨hs.mem, hs.engine⟩
  · exact ⟨hs.mem, reset_engineInv _⟩
  · exact ⟨hs.mem, hs.engine⟩
  · exact ⟨write_wf hs.mem a v, hs.engine⟩

end

/-- Settles O52: every input keeps the invariant, so every step does. -/
theorem stepKeepsTheInvariant : Obligations.StepKeepsTheInvariant := by
  unfold Obligations.StepKeepsTheInvariant
  intro s t
  exact step_keeps (fun _ _ hs => ⟨hs.mem, hs.engine⟩) fun _ _ _ => applyInput_inv

/-- Settles O53: the registers after reset meet the invariant, and memory is the canonical one the platform supplies. -/
theorem resetMeetsTheInvariant : Obligations.ResetMeetsTheInvariant := by
  unfold Obligations.ResetMeetsTheInvariant
  exact ⟨fun p _ _ _ hmem => ⟨hmem, reset_engineInv p⟩, ⟨List.Pairwise.nil, nofun⟩, reset_engineInv .w32⟩

/-! ### `EFLAG` is sticky (R25) -/

section
variable {s t : State} {i : Instr} {inp : Input}

theorem exec_eflag (hi : i ≠ .rst) (hs : s.engine.eflag = true) (h : exec i s = .next t) : t.engine.eflag = true := by
  cases exec_ran h with
  | rst => exact absurd rfl hi
  | fault => rfl
  | nop => exact hs
  | init => exact hs
  | byteStep => exact hs
  | done => exact hs

/-- An input that clears `EFLAG` is hardware reset or a write of the word of `RST`. -/
theorem applyInput_clears_eflag (hs : s.engine.eflag = true) (h : applyInput inp s = .next t)
    (ht : t.engine.eflag = false) :
    inp = .hardReset ∨ ∃ c, inp = .hostWrite 0x00#8 c ∧ decode c = .ok .rst := by
  rcases applyInput_cases h with ⟨c, i, rfl, hdec, h⟩ | ⟨c, e, -, -, rfl⟩ | ⟨off, v, -, -, rfl⟩ | ⟨off, -, rfl⟩ |
    ⟨rfl, rfl⟩ | ⟨bs, -, rfl⟩ | ⟨a, v, -, rfl⟩
  · by_cases hi : i = .rst
    · exact .inr ⟨c, rfl, hi ▸ hdec⟩
    · exact absurd ((exec_eflag (s := record .write 0x00#8 c s) hi hs h).symm.trans ht) nofun
  · cases ht
  · exact absurd (hs.symm.trans ((writeOperand_eflag off v s.engine).symm.trans ht)) nofun
  · exact absurd (hs.symm.trans ht) nofun
  · exact .inl rfl
  · exact absurd (hs.symm.trans ht) nofun
  · exact absurd (hs.symm.trans ht) nofun

end

/-- Settles O49: the input the step takes clears the flag. -/
theorem onlyResetClearsEflag : Obligations.OnlyResetClearsEflag := by
  unfold Obligations.OnlyResetClearsEflag
  intro s t h hs ht
  rcases step_cases h with ⟨-, rfl⟩ | ⟨inp, rest, hin, h⟩
  · exact absurd (hs.symm.trans ht) nofun
  · refine ⟨rest, ?_⟩
    rcases applyInput_clears_eflag (s := { s with inputs := rest }) hs h ht with rfl | ⟨c, rfl, hdec⟩
    · exact .inl hin
    · exact .inr ⟨c, hin, hdec⟩

/-! ### The columns of the register table (R33) -/

/-- Settles O48: each shape of a next state keeps the registers outside its columns. -/
theorem commandsWriteOnlyTheirColumns : Obligations.CommandsWriteOnlyTheirColumns := by
  unfold Obligations.CommandsWriteOnlyTheirColumns
  intro i s t hi h
  cases exec_ran h with
  | nop => exact ⟨s.engine, by simp⟩
  | rst => exact absurd rfl hi
  | fault i hi f hf => exact ⟨(raise f s).engine, by simp_all⟩
  | init =>
    refine ⟨_, rfl, ?_⟩
    simp
  | byteStep i d plain out hi hp =>
    refine ⟨_, rfl, ?_⟩
    rcases hi with rfl | rfl <;> simp
  | done i hi valid short tag m src snk hm hmem hport hv =>
    have hother : i ≠ .nop ∧ ∀ d, i ≠ .encb d ∧ i ≠ .decb d := by cases i <;> simp_all
    refine ⟨_, rfl, ?_⟩
    simp_all

end Sys2Proof.Machine

/-! ### Which commands read the session (R94, R95, R113) -/

namespace Sys2Proof.Machine

/-- `s` with another session and another `PHASE`. -/
abbrev withSession (s : State) (ss : Session s.profile) (ph : Phase) : State :=
  { s with engine := { s.engine with session := ss, phase := ph } }

/-- What a command does that does not read the session: it raises the same fault whatever the session, or its next
state is the same. -/
def BlindToSession (x : State → Host.Outcome State Fault Refusal) : Prop :=
  ∀ (s : State) (ss : Session s.profile) (ph : Phase),
    (∃ f, f ≠ .ok ∧ x s = .next (raise f s) ∧ x (withSession s ss ph) = .next (raise f (withSession s ss ph))) ∨
      x (withSession s ss ph) = x s

/-- A controller command whose guards and whose result past them do not depend on the session is blind to it. -/
theorem blindToSession_of_guards {x : State → Host.Outcome State Fault Refusal} {regions : State → Prop}
    (hregions : ∀ s ss ph, regions (withSession s ss ph) ↔ regions s)
    (hsize : ∀ s : State, frameTooSmall s.engine → x s = .next (raise .size s))
    (hbus : ∀ s : State, ¬ frameTooSmall s.engine → ¬ regions s → x s = .next (raise .bus s))
    (hdone : ∀ (s : State) (ss : Session s.profile) (ph : Phase), FrameFits s → regions s →
      x (withSession s ss ph) = x s) : BlindToSession x := by
  intro s ss ph
  by_cases hfits : FrameFits s
  · have hsmall := not_frameTooSmall hfits
    by_cases hr : regions s
    · exact .inr (hdone s ss ph hfits hr)
    · exact .inl ⟨.bus, nofun, hbus s hsmall hr, hbus (withSession s ss ph) hsmall (mt (hregions s ss ph).mp hr)⟩
  · have hsmall := (frameTooSmall_iff s).mpr hfits
    exact .inl ⟨.size, nofun, hsize s hsmall, hsize (withSession s ss ph) hsmall⟩

theorem execEncs_blind : BlindToSession execEncs :=
  blindToSession_of_guards (regions := fun s => RegionOK s.mapped s.engine.ivp s.engine.ivlen.toNat)
    (fun _ _ _ => Iff.rfl) (fun _ => execEncs_size) (fun _ => execEncs_bus)
    fun s ss ph h hr => (execEncs_done (s := withSession s ss ph) h hr).trans (execEncs_done h hr).symm

theorem execDecs_blind : BlindToSession execDecs :=
  blindToSession_of_guards (regions := fun _ => True)
    (fun _ _ _ => Iff.rfl) (fun _ => execDecs_size) (fun _ _ hr => absurd trivial hr)
    fun s ss ph h _ => (execDecs_done (s := withSession s ss ph) h _ _ rfl rfl).trans (execDecs_done h _ _ rfl rfl).symm

theorem execEncm_blind : BlindToSession execEncm :=
  blindToSession_of_guards (regions := EncmRegionsOK)
    (fun _ _ _ => Iff.rfl) (fun _ => execEncm_size) (fun _ => execEncm_bus)
    fun s ss ph h hr => (execEncm_done (s := withSession s ss ph) h hr _ rfl).trans (execEncm_done h hr _ rfl).symm

theorem execDecm_blind : BlindToSession execDecm :=
  blindToSession_of_guards (regions := DecmRegionsOK)
    (fun _ _ _ => Iff.rfl) (fun _ => execDecm_size) (fun _ => execDecm_bus)
    fun s ss ph h hr => (execDecm_done (s := withSession s ss ph) h hr _ _ _ rfl rfl rfl).trans
      (execDecm_done h hr _ _ _ rfl rfl rfl).symm

/-- `INIT` and the controller commands open a session of their own. -/
theorem exec_blind {i : Instr} (hi : i ∈ [Instr.init, .encs, .decs, .encm, .decm]) : BlindToSession (exec i) := by
  simp only [List.mem_cons, List.not_mem_nil, or_false] at hi
  rcases hi with rfl | rfl | rfl | rfl | rfl
  · exact fun _ _ _ => .inr rfl
  · exact execEncs_blind
  · exact execDecs_blind
  · exact execEncm_blind
  · exact execDecm_blind

/-- Settles O51: a command that completes raised no fault, so its next state is the same. -/
theorem newSessionForgetsTheOldOne : Obligations.NewSessionForgetsTheOldOne := by
  unfold Obligations.NewSessionForgetsTheOldOne
  intro i s t ss ph hi h hok
  rcases exec_blind hi s ss ph with ⟨f, hf, hraise, -⟩ | hsame
  · cases hraise.symm.trans h
    exact absurd hok hf
  · exact hsame.trans h

/-- From `s` and from any state that differs from it in the session only, `x` leads to two states that differ in the
session only. -/
def KeepsSessionApart (x : State → Host.Outcome State Fault Refusal) (s : State) : Prop :=
  ∀ (t : State) (ss : Session s.profile), x s = .next t → ∃ ss' : Session t.profile,
    x (withSession s ss s.engine.phase) = .next (withSession t ss' t.engine.phase)

/-- A fault leaves the session as it was, one that differs too. -/
theorem keepsSessionApart_of_raise {x : State → Host.Outcome State Fault Refusal} {s : State} {f : Err}
    (hx : ∀ ss, x (withSession s ss s.engine.phase) = .next (raise f (withSession s ss s.engine.phase))) :
    KeepsSessionApart x s := by
  intro t ss h
  cases h.symm.trans (hx s.engine.session)
  exact ⟨ss, hx ss⟩

theorem BlindToSession.keepsSessionApart {x : State → Host.Outcome State Fault Refusal} (hx : BlindToSession x)
    (s : State) : KeepsSessionApart x s := by
  intro t ss h
  rcases hx s ss s.engine.phase with ⟨f, -, hraise, hraise'⟩ | hsame
  · cases h.symm.trans hraise
    exact ⟨ss, hraise'⟩
  · exact ⟨t.engine.session, hsame.trans h⟩

/-- While idle, the byte commands and `FINAL` raise `E_SEQ` whatever the session registers are. -/
theorem exec_keepsSessionApart {s : State} (hidle : s.engine.phase = .idle) (i : Instr) :
    KeepsSessionApart (exec i) s := by
  cases i with
  | nop => exact fun t ss h => by cases h; exact ⟨ss, rfl⟩
  | rst => exact fun t ss h => by cases h; exact ⟨Session.zero _, rfl⟩
  | encb d => exact keepsSessionApart_of_raise fun ss => execEncb_idle d hidle
  | decb d => exact keepsSessionApart_of_raise fun ss => execDecb_idle d hidle
  | final => exact keepsSessionApart_of_raise fun ss => execFinal_idle hidle
  | init => exact (exec_blind (by simp)).keepsSessionApart s
  | encs => exact (exec_blind (by simp)).keepsSessionApart s
  | decs => exact (exec_blind (by simp)).keepsSessionApart s
  | encm => exact (exec_blind (by simp)).keepsSessionApart s
  | decm => exact (exec_blind (by simp)).keepsSessionApart s

/-- Settles O50, command by command. -/
theorem idleSessionRegistersAreNeverRead : Obligations.IdleSessionRegistersAreNeverRead := by
  unfold Obligations.IdleSessionRegistersAreNeverRead
  intro i s t ss hidle h
  exact exec_keepsSessionApart hidle i t ss h

end Sys2Proof.Machine

/-! ### `advance` is a linear bijection (R80) -/

namespace Sys2Proof.Machine

section
variable {w : Nat}

theorem xor_shiftLeft_linear (n : Nat) (a b : BitVec w) :
    (a ^^^ b) ^^^ ((a ^^^ b) <<< n) = (a ^^^ (a <<< n)) ^^^ (b ^^^ (b <<< n)) := by
  rw [BitVec.shiftLeft_xor_distrib]
  ac_rfl

theorem xor_ushiftRight_linear (n : Nat) (a b : BitVec w) :
    (a ^^^ b) ^^^ ((a ^^^ b) >>> n) = (a ^^^ (a >>> n)) ^^^ (b ^^^ (b >>> n)) := by
  rw [BitVec.ushiftRight_xor_distrib]
  ac_rfl

end

section
variable {p : Profile}

/-- Each of the three xorshift steps is linear. -/
theorem advance_xor (a b : BitVec p.width) : advance (a ^^^ b) = advance a ^^^ advance b := by
  simp only [advance, xor_shiftLeft_linear, xor_ushiftRight_linear]

/-- A linear map that is 0 on 0 alone is injective. -/
theorem advance_injective : Function.Injective (advance (p := p)) := by
  intro a b h
  rw [← BitVec.xor_eq_zero_iff, ← advance_eq_zero_iff, advance_xor, h, BitVec.xor_self]

@[simp] theorem advance_zero : advance (0#p.width) = 0#p.width := (advance_eq_zero_iff _).mpr rfl

end

/-- Settles O17: an injective map of a finite set to itself is a bijection. -/
theorem advanceIsALinearBijection : Obligations.AdvanceIsALinearBijection := by
  unfold Obligations.AdvanceIsALinearBijection
  exact fun p => ⟨advance_zero, advance_xor, Finite.injective_iff_bijective.mp advance_injective, advance_eq_zero_iff⟩

/-! ### The lane and the cursor (R84) -/

section
variable {p : Profile} {c : Cursor}

theorem toNat_nextCursor (c : Cursor) : (nextCursor p c).toNat = (c.toNat + 8) % (p.width - 8) := by
  cases p <;> simp [nextCursor, Profile.laneMod, Profile.width] <;> omega

/-- At a legal cursor the lane ends below the top byte. -/
theorem byte_mul_lt (h : CursorLegal p c) (b : Byte) : b.toNat * 2 ^ c.toNat < 2 ^ (p.width - 8) := by
  obtain ⟨-, hc⟩ := h
  calc b.toNat * 2 ^ c.toNat < 2 ^ 8 * 2 ^ c.toNat := Nat.mul_lt_mul_of_pos_right b.isLt (Nat.two_pow_pos _)
    _ = 2 ^ (8 + c.toNat) := (Nat.pow_add 2 8 _).symm
    _ ≤ 2 ^ (p.width - 8) := Nat.pow_le_pow_right Nat.two_pos (by cases p <;> simp only [Profile.width] at * <;> omega)

theorem toNat_zextByte (b : Byte) : (zextByte p b).toNat = b.toNat :=
  BitVec.toNat_setWidth_of_le (by cases p <;> decide)

theorem toNat_lane (h : CursorLegal p c) (b : Byte) : (lane p c b).toNat = b.toNat * 2 ^ c.toNat := by
  have hlt : b.toNat * 2 ^ c.toNat < 2 ^ p.width :=
    (byte_mul_lt h b).trans_le (Nat.pow_le_pow_right Nat.two_pos (Nat.sub_le _ _))
  rw [lane, BitVec.toNat_shiftLeft, toNat_zextByte, Nat.shiftLeft_eq, Nat.mod_eq_of_lt hlt]

end

/-- Settles O18: the lane, its bound, and the cursor after it. -/
theorem foldByteUsesTheLaneBelowTheTopByte : Obligations.FoldByteUsesTheLaneBelowTheTopByte := by
  unfold Obligations.FoldByteUsesTheLaneBelowTheTopByte
  intro p t c b hc
  refine ⟨lane p c b, toNat_lane hc b, ?_, rfl, toNat_nextCursor c, nextCursor_legal hc⟩
  rw [toNat_lane hc b]
  exact byte_mul_lt hc b

/-- Settles O19, by induction on the bytes, the last one first: each byte steps the cursor by 8, modulo
`8 (TAGW - 1)`. -/
theorem cursorCountsTheBytesFolded : Obligations.CursorCountsTheBytesFolded := by
  unfold Obligations.CursorCountsTheBytesFolded
  intro p k plain
  induction plain using List.reverseRecOn with
  | nil => rfl
  | append_singleton bs b ih =>
    rw [List.foldl_append, List.foldl_cons, List.foldl_nil, absorb_cur, toNat_nextCursor, ih, List.length_append,
      List.length_singleton]
    cases p <;> simp only [Profile.width] <;> omega

/-! ### The bytes of a tag (R43) -/

section
variable {p : Profile}

theorem getLsbD_putTagByte (rx : BitVec p.width) (k : Nat) (r : Byte) {i : Nat} (hi : i < p.width) :
    (putTagByte rx k r).getLsbD i = (rx.getLsbD i || (decide (i / 8 = k) && r.getLsbD (i % 8))) := by
  rw [putTagByte, BitVec.getLsbD_or, BitVec.getLsbD_shiftLeft, BitVec.getLsbD_setWidth]
  rcases Nat.lt_trichotomy (i / 8) k with hlt | rfl | hgt
  · have hbelow : i < 8 * k := by omega
    simp [hbelow, hlt.ne]
  · have hge : ¬ i < 8 * (i / 8) := by omega
    have hmod : i - 8 * (i / 8) = i % 8 := by omega
    have hw : i % 8 < p.width := by omega
    simp [hi, hge, hmod, hw]
  · have habove : 8 ≤ i - 8 * k := by omega
    simp [hgt.ne', BitVec.getLsbD_of_ge r _ habove]

/-- Bit `i` of a tag put together from byte `k` up: bit `i % 8` of byte `i / 8`. -/
theorem getLsbD_tagFromBytesAt (bs : List Byte) {i : Nat} (hi : i < p.width) :
    ∀ (rx : BitVec p.width) (k : Nat), (tagFromBytesAt rx k bs).getLsbD i =
      (rx.getLsbD i || (decide (k ≤ i / 8) && (bs.getD (i / 8 - k) 0x00#8).getLsbD (i % 8))) := by
  induction bs with
  | nil => simp [tagFromBytesAt]
  | cons b bs ih =>
    intro rx k
    rw [tagFromBytesAt, ih, getLsbD_putTagByte rx k b hi]
    rcases Nat.lt_trichotomy (i / 8) k with hlt | rfl | hgt
    · simp [hlt.ne, hlt.not_ge, show ¬ k + 1 ≤ i / 8 by omega]
    · simp
    · have hsucc : i / 8 - k = i / 8 - (k + 1) + 1 := by omega
      simp [hgt.ne', hgt.le, hgt, hsucc]

theorem getLsbD_tagFromBytes (bs : List Byte) {i : Nat} (hi : i < p.width) :
    (tagFromBytes p bs).getLsbD i = (bs.getD (i / 8) 0x00#8).getLsbD (i % 8) := by
  simp [tagFromBytes, getLsbD_tagFromBytesAt bs hi]

@[simp] theorem tagBytes_getElem (t : BitVec p.width) (k : Nat) (h : k < (tagBytes t).length) :
    (tagBytes t)[k] = tagByte t k := by
  simp [tagBytes]

theorem toNat_tagByte (t : BitVec p.width) (k : Nat) : (tagByte t k).toNat = t.toNat / 2 ^ (8 * k) % 256 := by
  rw [tagByte, BitVec.extractLsb'_toNat, Nat.shiftRight_eq_div_pow]

theorem getLsbD_tagByte (t : BitVec p.width) (k : Nat) {j : Nat} (hj : j < 8) :
    (tagByte t k).getLsbD j = t.getLsbD (8 * k + j) := by
  simp [tagByte, hj]

theorem width_eq_mul_tagw (p : Profile) : p.width = 8 * p.tagw := by cases p <;> rfl

@[simp] theorem tagFromBytes_tagBytes (t : BitVec p.width) : tagFromBytes p (tagBytes t) = t := by
  refine BitVec.eq_of_getLsbD_eq fun i hi => ?_
  have hk : i / 8 < (tagBytes t).length := by
    have := width_eq_mul_tagw p
    rw [tagBytes_length]
    omega
  rw [getLsbD_tagFromBytes _ hi, List.getD_eq_getElem _ _ hk, tagBytes_getElem,
    getLsbD_tagByte t _ (Nat.mod_lt _ (by decide)), Nat.div_add_mod]

theorem tagBytes_tagFromBytes {bs : List Byte} (h : bs.length = p.tagw) : tagBytes (tagFromBytes p bs) = bs := by
  refine List.ext_getElem (by rw [tagBytes_length, h]) fun k hk hk' => ?_
  refine BitVec.eq_of_getLsbD_eq fun j hj => ?_
  have hi : 8 * k + j < p.width := by
    have := width_eq_mul_tagw p
    omega
  have hdiv : (8 * k + j) / 8 = k := by omega
  have hmod : (8 * k + j) % 8 = j := by omega
  rw [tagBytes_getElem, getLsbD_tagByte _ _ hj, getLsbD_tagFromBytes bs hi, hdiv, hmod, List.getD_eq_getElem _ _ hk']

end

/-- Settles O20: each byte is read off the tag's number, and each way round is compared bit by bit. -/
theorem tagBytesAreLittleEndian : Obligations.TagBytesAreLittleEndian := by
  unfold Obligations.TagBytesAreLittleEndian
  refine fun p =>
    ⟨fun t => ⟨tagBytes_length t, fun k hk => ?_, tagFromBytes_tagBytes t⟩, fun bs => tagBytes_tagFromBytes⟩
  rw [tagBytes_getElem, toNat_tagByte]

end Sys2Proof.Machine

/-! ### Decryption undoes encryption, byte by byte (R91, R92) -/

namespace Sys2Proof.Machine

section
variable {p : Profile}

/-- The mask is taken before the byte is absorbed, so it cancels, and both absorb the plain byte. -/
theorem decryptByte_encryptByte (ss : Session p) (b : Byte) :
    decryptByte ss (encryptByte ss b).2 = ((encryptByte ss b).1, b) := by
  have hplain : b ^^^ maskByte ss ^^^ maskByte ss = b := by
    rw [BitVec.xor_assoc, BitVec.xor_self, BitVec.xor_zero]
  simp only [decryptByte, encryptByte, hplain]

theorem decryptBytes_encryptBytes (bs : List Byte) :
    ∀ ss : Session p, decryptBytes ss (encryptBytes ss bs).2 = ((encryptBytes ss bs).1, bs) := by
  induction bs with
  | nil => exact fun _ => rfl
  | cons b bs ih =>
    intro ss
    simp only [encryptBytes_cons, decryptBytes_cons, decryptByte_encryptByte, ih]

theorem plainOf_cipherOf (k : BitVec p.width) (plain : List Byte) : plainOf k (cipherOf k plain) = plain := by
  rw [plainOf, cipherOf, decryptBytes_encryptBytes]

theorem tagOfCipher_cipherOf (k : BitVec p.width) (plain : List Byte) :
    tagOfCipher k (cipherOf k plain) = tagOf k plain := by
  rw [tagOfCipher, cipherOf, decryptBytes_encryptBytes, tagOf]

end

/-- Settles O25: one byte of the round trip. -/
theorem decryptByteUndoesEncryptByte : Obligations.DecryptByteUndoesEncryptByte := by
  unfold Obligations.DecryptByteUndoesEncryptByte
  exact fun _ => decryptByte_encryptByte

/-! ### A session with a zero seed (R91, R92) -/

theorem maskByte_of_zero_seed {p : Profile} {ss : Session p} (h : ss.seed = 0#p.width) : maskByte ss = 0x00#8 := by
  rw [maskByte, h, advance_zero, BitVec.extractLsb'_zero]

theorem absorb_seed_of_zero_seed {p : Profile} {ss : Session p} (h : ss.seed = 0#p.width) (b : Byte) :
    (absorb ss b).seed = (absorb ss b).tag := by
  rw [absorb_seed, absorb_tag, h, advance_zero, BitVec.zero_xor]

/-- Settles O27: the mask is 0, so both byte commands absorb and return the byte itself. -/
theorem zeroSeedPassesTheByteThrough : Obligations.ZeroSeedPassesTheByteThrough := by
  unfold Obligations.ZeroSeedPassesTheByteThrough
  intro s d hopen hseed
  have hplain : d ^^^ maskByte s.engine.session = d := by rw [maskByte_of_zero_seed hseed, BitVec.xor_zero]
  have hseed' := absorb_seed_of_zero_seed hseed d
  simp only [List.forall_mem_cons, exec_encb, exec_decb, execEncb_opened d hopen, execDecb_opened d hopen, hplain]
  exact ⟨⟨_, rfl, rfl, rfl, hseed', rfl, rfl, hopen⟩, ⟨_, rfl, rfl, rfl, hseed', rfl, rfl, hopen⟩, nofun⟩

/-! ### Byte commands one after another (R96, R97) -/

/-- A byte command that completes, and then the others. -/
theorem runBytes_cons {cmd : Byte → Instr} {b : Byte} {bs out : List Byte} {s t u : State}
    (h : exec (cmd b) s = .next t) (hrun : runBytes cmd bs t = some (u, out)) :
    runBytes cmd (b :: bs) s = some (u, t.engine.dout :: out) := by
  simp [runBytes, h, hrun]

section
variable {s : State}

/-- `ENCB` of each byte, in an open session. -/
theorem runBytes_encb (bs : List Byte) :
    ∀ {e : Engine s.profile}, e.phase = .opened → ∃ e' : Engine s.profile,
      runBytes .encb bs { s with engine := e } = some ({ s with engine := e' }, (encryptBytes e.session bs).2) ∧
        e'.session = (encryptBytes e.session bs).1 ∧ e'.phase = .opened := by
  induction bs with
  | nil => exact fun {e} hopen => ⟨e, rfl, rfl, hopen⟩
  | cons b bs ih =>
    intro e hopen
    obtain ⟨e', hrun, hsession, hphase⟩ :=
      ih (e := complete false false { e with session := absorb e.session b, dout := b ^^^ maskByte e.session }) hopen
    have hexec := execEncb_opened (s := { s with engine := e }) b hopen
    exact ⟨e', runBytes_cons (cmd := .encb) hexec hrun, hsession, hphase⟩

/-- `DECB` of each byte, in an open session. -/
theorem runBytes_decb (cs : List Byte) :
    ∀ {e : Engine s.profile}, e.phase = .opened → ∃ e' : Engine s.profile,
      runBytes .decb cs { s with engine := e } = some ({ s with engine := e' }, (decryptBytes e.session cs).2) ∧
        e'.session = (decryptBytes e.session cs).1 ∧ e'.phase = .opened := by
  induction cs with
  | nil => exact fun {e} hopen => ⟨e, rfl, rfl, hopen⟩
  | cons c cs ih =>
    intro e hopen
    obtain ⟨e', hrun, hsession, hphase⟩ :=
      ih (e := complete false false
        { e with session := absorb e.session (c ^^^ maskByte e.session), dout := c ^^^ maskByte e.session }) hopen
    have hexec := execDecb_opened (s := { s with engine := e }) c hopen
    exact ⟨e', runBytes_cons (cmd := .decb) hexec hrun, hsession, hphase⟩

end

/-- Settles O26: the two runs of byte commands are the two lists of bytes, which undo each other and leave one
session. -/
theorem byteSessionRoundTrip : Obligations.ByteSessionRoundTrip := by
  unfold Obligations.ByteSessionRoundTrip
  intro s bs
  have hround := decryptBytes_encryptBytes bs (initSession s.engine.key)
  obtain ⟨e₁, henc, hsession₁, hopen₁⟩ := runBytes_encb (s := s) bs
    (e := complete false false { s.engine with session := initSession s.engine.key, phase := .opened }) rfl
  obtain ⟨e₂, hdec, hsession₂, hopen₂⟩ := runBytes_decb (s := s) (encryptBytes (initSession s.engine.key) bs).2
    (e := complete false false { s.engine with session := initSession s.engine.key, phase := .opened }) rfl
  simp only [complete_session, hround] at hdec hsession₁ hsession₂
  have hsession : e₂.session = e₁.session := hsession₂.trans hsession₁.symm
  exact ⟨_, e₁, e₂, _, _, _, rfl, henc, execFinal_opened (s := { s with engine := e₁ }) hopen₁, hdec,
    execFinal_opened (s := { s with engine := e₂ }) hopen₂, hsession, congrArg finalizeTag hsession⟩

end Sys2Proof.Machine

/-! ### Regions (R42, R53, R121) -/

namespace Sys2Proof.Machine

section
variable {mapped : List AddrRange} {b₁ b₂ : Addr} {n n₁ n₂ i j : Nat}

theorem RegionOK.bound (h : RegionOK mapped b₁ n₁) (hi : i < n₁) : b₁.toNat + i < 2 ^ 32 := by
  rcases h with rfl | ⟨hb, -⟩ <;> omega

theorem RegionOK.mono (h : RegionOK mapped b₁ n₁) (hn : n ≤ n₁) : RegionOK mapped b₁ n := by
  rcases h with rfl | ⟨hb, hm⟩
  · exact .inl (Nat.le_zero.mp hn)
  · exact .inr ⟨by omega, fun i hi => hm i (by omega)⟩

theorem RegionOK.toNat_byteAddr (h : RegionOK mapped b₁ n₁) (hi : i < n₁) : (byteAddr b₁ i).toNat = b₁.toNat + i :=
  byteAddr_toNat (RegionOK.bound h hi)

/-- Regions that are apart share no byte address. -/
theorem byteAddr_ne_of_apart (hr₁ : RegionOK mapped b₁ n₁) (hr₂ : RegionOK mapped b₂ n₂)
    (h : RegionsApart b₁ n₁ b₂ n₂) (hi : i < n₁) (hj : j < n₂) : byteAddr b₁ i ≠ byteAddr b₂ j := by
  rw [Ne, ← BitVec.toNat_inj, RegionOK.toNat_byteAddr hr₁ hi, RegionOK.toNat_byteAddr hr₂ hj]
  rcases h with h | h | h | h <;> omega

theorem InRegion.mono {base a : Addr} (h : InRegion base n a) (hn : n ≤ n₁) : InRegion base n₁ a := by
  obtain ⟨i, hi, ha⟩ := h
  exact ⟨i, hi.trans_le hn, ha⟩

end

section
variable {m : Memory} {base a : Addr} {bs : List Byte}

/-- Writing bytes to a region leaves every address outside it alone. -/
theorem read_writeBytes_of_not_inRegion {n : Nat} (h : ¬ InRegion base n a) (hlen : bs.length ≤ n) :
    Memory.read (Memory.writeBytes m base 0 bs) a = Memory.read m a :=
  read_writeBytes_outside base a bs m 0 fun j _ hj hja => h ⟨j, by omega, hja.symm⟩

/-- A part of a region holds the bytes just written to it. -/
theorem memBytes_writeBytes_at (n : Nat) (h : base.toNat + n + bs.length ≤ 2 ^ 32) :
    memBytes (Memory.writeBytes m base n bs) (byteAddr base n) bs.length = bs := by
  refine List.ext_getElem (by simp) fun i h₁ h₂ => ?_
  simpa using read_writeBytes_inside base bs m n i h₂ h

end

/-! ### What the buffer commands write, with any overlap (R116, R117) -/

section
variable {s : State} {a : Addr}

/-- `ENCM` writes byte `i` of its frame in round `i`, and nothing else. -/
theorem read_encmUpTo_outside (i : Nat) (h : ¬ InRegion s.engine.dst i a) :
    Memory.read (encmUpTo s i).2 a = Memory.read s.mem a := by
  induction i with
  | zero => rw [encmUpTo_zero]
  | succ i ih =>
    rw [encmUpTo_succ, encryptRound, read_write_other _ _ fun hai => h ⟨i, i.lt_succ_self, hai.symm⟩]
    exact ih fun hin => h (InRegion.mono hin i.le_succ)

/-- `DECM` writes byte `i - IVLEN` of its payload in round `i`, and nothing else. -/
theorem read_decmUpTo_outside (i : Nat) (h : ¬ InRegion s.engine.dst (i - s.engine.ivlen.toNat) a) :
    Memory.read (decmUpTo s i).2 a = Memory.read s.mem a := by
  induction i with
  | zero => rw [decmUpTo_zero]
  | succ i ih =>
    have ih := ih fun hin => h (InRegion.mono hin (by omega))
    by_cases hlt : i < s.engine.ivlen.toNat
    · rw [decmUpTo_succ_of_lt hlt]
      exact ih
    · rw [decmUpTo_succ_of_ge hlt, decryptRound, read_write_other _ _ fun hai => h ⟨_, by omega, hai.symm⟩]
      exact ih

/-- The frame region does not run past the top of the address space. -/
theorem frame_bound (h : FrameFits s) {base : Addr} (hr : RegionOK s.mapped base s.engine.len.toNat) :
    base.toNat + s.engine.len.toNat ≤ 2 ^ 32 := by
  have hlen := frame_length_split h
  have htagw : 0 < s.profile.tagw := by cases s.profile <;> decide
  have := RegionOK.bound hr (i := s.engine.len.toNat - 1) (by omega)
  omega

end

/-- Settles O34: the rounds write the frame region up to its tag, and the tag is written last. -/
theorem encmWritesOnlyItsFrame : Obligations.EncmWritesOnlyItsFrame := by
  unfold Obligations.EncmWritesOnlyItsFrame
  intro s h hivp hsrc hdst
  have hlen := frame_length_split h
  have hbound := frame_bound h hdst
  refine ⟨_, _, execEncm_done h ⟨hivp, hsrc, hdst⟩ _ rfl, fun a ha => ?_, ?_⟩
  · rw [read_writeBytes_outside, read_encmUpTo_outside]
    · exact fun hin => ha (InRegion.mono hin (by omega))
    · intro j _ hj hja
      rw [tagBytes_length] at hj
      exact ha ⟨j, by omega, hja.symm⟩
  · rw [← Profile.tagw, ← tagBytes_length (finalizeTag (encmUpTo s _).1)]
    exact memBytes_writeBytes_at _ (by rw [tagBytes_length]; omega)

/-- Settles O35: the rounds write the payload region. -/
theorem decmWritesOnlyThePayload : Obligations.DecmWritesOnlyThePayload := by
  unfold Obligations.DecmWritesOnlyThePayload
  intro s h hsrc hdst
  refine ⟨_, _, _, execDecm_done h ⟨hsrc, hdst⟩ _ _ _ rfl rfl rfl, fun a ha => read_decmUpTo_outside _ ?_⟩
  rwa [Nat.add_sub_cancel_left]

end Sys2Proof.Machine

/-! ### `ENCM` where no byte is read after it was written (R53, R116) -/

namespace Sys2Proof.Machine

section
variable {s : State}

/-- The bytes `ENCM` encrypts: the IV and the payload as they stood before it. -/
abbrev encmPlain (s : State) : List Byte := ivBytes s ++ payloadBytes s

/-- No byte of the frame is written before the round that reads its address. -/
def EncmReadsFirst (s : State) : Prop :=
  ∀ j k, j < k → k < s.engine.ivlen.toNat + payloadOf s → byteAddr s.engine.dst j ≠ encmSource s k

theorem encmPlain_length (s : State) : (encmPlain s).length = s.engine.ivlen.toNat + payloadOf s := by simp

theorem encmPlain_getElem {i : Nat} (hi : i < (encmPlain s).length) :
    (encmPlain s)[i] = Memory.read s.mem (encmSource s i) := by
  unfold encmSource
  split <;> rename_i hlt
  · rw [List.getElem_append_left (by simpa using hlt), memBytes_getElem]
  · rw [List.getElem_append_right (by simpa using hlt), memBytes_getElem, memBytes_length]

/-- The first `i` rounds of `ENCM` encrypt the first `i` bytes that stood there before it. -/
theorem encmUpTo_eq (hsafe : EncmReadsFirst s) {i : Nat} (hi : i ≤ (encmPlain s).length) :
    encmUpTo s i =
      ((encryptBytes (initSession s.engine.key) ((encmPlain s).take i)).1,
        Memory.writeBytes s.mem s.engine.dst 0 (encryptBytes (initSession s.engine.key) ((encmPlain s).take i)).2) := by
  induction i with
  | zero => simp [Memory.writeBytes]
  | succ i ih =>
    have hread (bs : List Byte) (hbs : bs.length = i) :
        Memory.read (Memory.writeBytes s.mem s.engine.dst 0 bs) (encmSource s i) = (encmPlain s)[i] := by
      rw [encmPlain_getElem, read_writeBytes_outside]
      exact fun j _ hj => hsafe j i (by omega) (encmPlain_length s ▸ hi)
    have hlen : ((encmPlain s).take i).length = i := List.length_take_of_le (Nat.le_of_succ_le hi)
    rw [encmUpTo_succ, ih (Nat.le_of_succ_le hi), List.take_succ_eq_append_getElem hi, encryptBytes_append,
      writeBytes_append]
    simp only [encryptRound, hread _ ((encryptBytes_length _ _).trans hlen), encryptBytes_cons, encryptBytes_nil,
      Memory.writeBytes, encryptBytes_length, hlen, Nat.zero_add]

/-- `ENCM` writes the frame of the IV and the payload that stood there before it. -/
theorem execEncm_frame (h : FrameFits s) (hr : EncmRegionsOK s) (hsafe : EncmReadsFirst s) :
    execEncm s = .next { s with
      engine := closed false false (tagOf s.engine.key (encmPlain s)) s.engine
      mem := Memory.writeBytes s.mem s.engine.dst 0 (frameOf s.engine.key (ivBytes s) (payloadBytes s)) } := by
  have hrounds := encmUpTo_eq hsafe le_rfl
  have hcipher : (cipherOf s.engine.key (encmPlain s)).length = s.engine.ivlen.toNat + payloadOf s :=
    (encryptBytes_length _ _).trans (encmPlain_length s)
  rw [List.take_length, encmPlain_length] at hrounds
  rw [execEncm_done h hr (tagOf s.engine.key (encmPlain s)) (by rw [hrounds, tagOf]), hrounds, frameOf,
    writeBytes_append, hcipher, Nat.zero_add, cipherOf]

/-- The frame of `ENCM` has `LEN` bytes (R111). -/
theorem encmFrame_length (h : FrameFits s) :
    (frameOf s.engine.key (ivBytes s) (payloadBytes s)).length = s.engine.len.toNat := by
  rw [frameOf_length, memBytes_length, memBytes_length, frame_length_split h]

theorem payloadOf_le (s : State) : payloadOf s ≤ s.engine.len.toNat := (Nat.sub_le _ _).trans (Nat.sub_le _ _)

/-- What memory holds after the frame is written: the frame in its region, and every other byte as before. -/
theorem memory_of_encmFrame (h : FrameFits s) (hdst : RegionOK s.mapped s.engine.dst s.engine.len.toNat) (m : Memory)
    (hm : m = Memory.writeBytes s.mem s.engine.dst 0 (frameOf s.engine.key (ivBytes s) (payloadBytes s))) :
    memBytes m s.engine.dst s.engine.len.toNat = frameOf s.engine.key (ivBytes s) (payloadBytes s) ∧
      ∀ a, ¬ InRegion s.engine.dst s.engine.len.toNat a → Memory.read m a = Memory.read s.mem a := by
  have hlen := encmFrame_length h
  subst hm
  constructor
  · have hbound := frame_bound h hdst
    rw [← hlen] at hbound ⊢
    exact memBytes_writeBytes _ _ _ hbound
  · exact fun a ha => read_writeBytes_of_not_inRegion ha hlen.le

/-- A frame region apart from the IV and the payload is written after they are read. -/
theorem encmReadsFirst_of_apart (h : FrameFits s) (hr : EncmRegionsOK s)
    (hiv : RegionsApart s.engine.dst s.engine.len.toNat s.engine.ivp s.engine.ivlen.toNat)
    (hpl : RegionsApart s.engine.dst s.engine.len.toNat s.engine.src (payloadOf s)) : EncmReadsFirst s := by
  obtain ⟨hivp, hsrc, hdst⟩ := hr
  have hlen := frame_length_split h
  intro j k hjk hk
  unfold encmSource
  split
  · exact byteAddr_ne_of_apart hdst hivp hiv (by omega) (by omega)
  · have hpayload : k - s.engine.ivlen.toNat < payloadOf s := by omega
    exact byteAddr_ne_of_apart hdst hsrc hpl (by omega) hpayload

/-- In place without an IV, byte `k` is read and written in round `k`. -/
theorem encmReadsFirst_inPlace (hiv : s.engine.ivlen = 0#32) (hdst : s.engine.dst = s.engine.src)
    (hr : RegionOK s.mapped s.engine.dst (payloadOf s)) : EncmReadsFirst s := by
  intro j k hjk hk
  simp only [hiv, BitVec.toNat_ofNat, Nat.zero_mod, Nat.zero_add] at hk
  simp only [encmSource, hiv, BitVec.toNat_ofNat, Nat.zero_mod, Nat.not_lt_zero, if_false, Nat.sub_zero, ← hdst]
  rw [Ne, byteAddr_inj (RegionOK.bound hr (hjk.trans hk)) (RegionOK.bound hr hk)]
  exact hjk.ne

end

/-- Settles O36: regions apart are read before they are written. -/
theorem encmWritesTheFrame : Obligations.EncmWritesTheFrame := by
  unfold Obligations.EncmWritesTheFrame
  intro s h hivp hsrc hdst hiv hpl
  have hr : EncmRegionsOK s := ⟨hivp, hsrc, hdst⟩
  exact ⟨_, execEncm_frame h hr (encmReadsFirst_of_apart h hr hiv hpl), memory_of_encmFrame h hdst _ rfl⟩

/-- Settles O37: in place each payload byte is read in the round that writes it, and there is no IV. -/
theorem encmInPlaceWithoutIvIsSafe : Obligations.EncmInPlaceWithoutIvIsSafe := by
  unfold Obligations.EncmInPlaceWithoutIvIsSafe
  intro s h hivlen hinplace hdst
  have hpl : RegionOK s.mapped s.engine.dst (payloadOf s) := RegionOK.mono hdst (payloadOf_le s)
  have hzero : s.engine.ivlen.toNat = 0 := by rw [hivlen]; rfl
  have hnil : ivBytes s = [] := by rw [ivBytes, hzero, memBytes_zero]
  have hexec := execEncm_frame h ⟨.inl hzero, hinplace ▸ hpl, hdst⟩ (encmReadsFirst_inPlace hivlen hinplace hpl)
  have hmem := memory_of_encmFrame h hdst _ rfl
  rw [encmPlain, hnil, List.nil_append] at hexec
  rw [hnil] at hmem
  exact ⟨_, hexec, hmem⟩

end Sys2Proof.Machine

/-! ### `DECM` where no byte is read after it was written (R53, R117) -/

namespace Sys2Proof.Machine

section
variable {s : State}

/-- How many bytes of a frame come before its tag. -/
abbrev bodyLen (s : State) : Nat := s.engine.ivlen.toNat + payloadOf s

/-- The IV field and the ciphertext that `DECM` decrypts, as they stood before it. -/
abbrev decmBody (s : State) : List Byte := memBytes s.mem s.engine.src (bodyLen s)

/-- The tag of the frame that `DECM` decrypts, as it stood before it. -/
abbrev decmTag (s : State) : List Byte := memBytes s.mem (byteAddr s.engine.src (bodyLen s)) s.profile.tagw

/-- No byte of the payload is written before the round that reads its address, the tag being read after all of them. -/
def DecmReadsFirst (s : State) : Prop :=
  ∀ j k, s.engine.ivlen.toNat + j < k → j < payloadOf s → k < s.engine.len.toNat →
    byteAddr s.engine.dst j ≠ byteAddr s.engine.src k

/-- A byte of the frame reads as it stood before `DECM` while the payload bytes written come from before it. -/
theorem read_frame_of_readsFirst (hsafe : DecmReadsFirst s) {bs : List Byte} {k : Nat} (hk : k < s.engine.len.toNat)
    (hpayload : bs.length ≤ payloadOf s) (hbs : s.engine.ivlen.toNat + bs.length ≤ k) :
    Memory.read (Memory.writeBytes s.mem s.engine.dst 0 bs) (byteAddr s.engine.src k) =
      Memory.read s.mem (byteAddr s.engine.src k) :=
  read_writeBytes_outside _ _ _ _ _ fun j _ hj => hsafe j k (by omega) (by omega) hk

/-- The first `i` rounds of `DECM` decrypt the first `i` bytes that stood there before it, and write all but the IV. -/
theorem decmUpTo_eq (h : FrameFits s) (hsafe : DecmReadsFirst s) {i : Nat} (hi : i ≤ (decmBody s).length) :
    decmUpTo s i =
      ((decryptBytes (initSession s.engine.key) ((decmBody s).take i)).1,
        Memory.writeBytes s.mem s.engine.dst 0
          ((decryptBytes (initSession s.engine.key) ((decmBody s).take i)).2.drop s.engine.ivlen.toNat)) := by
  induction i with
  | zero => simp [Memory.writeBytes]
  | succ i ih =>
    have hbody : i < s.engine.ivlen.toNat + payloadOf s := hi.trans_eq (memBytes_length _ _ _)
    have hlen := frame_length_split h
    have hlength : (decryptBytes (initSession s.engine.key) ((decmBody s).take i)).2.length = i :=
      (decryptBytes_length _ _).trans (List.length_take_of_le (Nat.le_of_succ_le hi))
    rw [List.take_succ_eq_append_getElem hi, decryptBytes_append, decryptBytes_cons, decryptBytes_nil,
      memBytes_getElem]
    by_cases hlt : i < s.engine.ivlen.toNat
    · have hnone : (decryptBytes (initSession s.engine.key) ((decmBody s).take i)).2.drop s.engine.ivlen.toNat = [] :=
        List.drop_eq_nil_of_le (by omega)
      rw [decmUpTo_succ_of_lt hlt, ih (Nat.le_of_succ_le hi), hnone, List.drop_eq_nil_of_le (by simp; omega)]
      rfl
    · have hdrop : ((decryptBytes (initSession s.engine.key) ((decmBody s).take i)).2.drop
          s.engine.ivlen.toNat).length = i - s.engine.ivlen.toNat := by rw [List.length_drop, hlength]
      have hread := read_frame_of_readsFirst hsafe (k := i) (by omega) (hdrop.trans_le (by omega)) (by omega)
      rw [decmUpTo_succ_of_ge hlt, ih (Nat.le_of_succ_le hi), decryptRound, hread,
        List.drop_append_of_le_length (by omega), writeBytes_append, hdrop, Nat.zero_add]
      rfl

/-- What `DECM` writes: the plain payload of the frame that stood there before it. -/
abbrev decmPlain (s : State) : List Byte := (plainOf s.engine.key (decmBody s)).drop s.engine.ivlen.toNat

theorem decmPlain_length (s : State) : (decmPlain s).length = payloadOf s := by
  rw [decmPlain, plainOf, List.length_drop, decryptBytes_length, memBytes_length, Nat.add_sub_cancel_left]

/-- `DECM` decrypts the frame that stood there before it and compares with the tag that stood there. -/
theorem execDecm_plain (h : FrameFits s) (hr : DecmRegionsOK s) (hsafe : DecmReadsFirst s) :
    execDecm s = .next { s with
      engine := closed (decide (tagFromBytes s.profile (decmTag s) = tagOfCipher s.engine.key (decmBody s))) false
        (tagOfCipher s.engine.key (decmBody s)) s.engine
      mem := Memory.writeBytes s.mem s.engine.dst 0 (decmPlain s) } := by
  have hrounds := decmUpTo_eq h hsafe le_rfl
  have hlen := frame_length_split h
  rw [List.take_length, memBytes_length] at hrounds
  refine execDecm_done h hr _ _ _ (by rw [hrounds]; rfl) (by rw [hrounds, tagOfCipher]) (congrArg _ ?_)
  refine (memBytes_congr fun i hi => ?_).symm
  have hk : bodyLen s + i < s.engine.len.toNat := (Nat.add_lt_add_left hi _).trans_eq hlen
  have hpos : s.engine.ivlen.toNat + (decmPlain s).length ≤ bodyLen s + i := by
    rw [decmPlain_length]
    exact Nat.le_add_right _ _
  rw [byteAddr_byteAddr]
  exact read_frame_of_readsFirst hsafe hk (decmPlain_length s).le hpos

/-- What memory holds after the payload is written: the payload in its region, and every other byte as before. -/
theorem memory_of_decmPlain (hdst : RegionOK s.mapped s.engine.dst (payloadOf s)) (m : Memory)
    (hm : m = Memory.writeBytes s.mem s.engine.dst 0 (decmPlain s)) :
    memBytes m s.engine.dst (payloadOf s) = decmPlain s ∧
      ∀ a, ¬ InRegion s.engine.dst (payloadOf s) a → Memory.read m a = Memory.read s.mem a := by
  have hlen := decmPlain_length s
  subst hm
  constructor
  · have hbound : s.engine.dst.toNat + (decmPlain s).length ≤ 2 ^ 32 := by
      rcases hdst with hzero | ⟨hb, -⟩ <;> omega
    rw [← hlen]
    exact memBytes_writeBytes _ _ _ hbound
  · exact fun a ha => read_writeBytes_of_not_inRegion ha hlen.le

/-- The output overlaps the frame safely: it starts at or below the ciphertext, or is apart from the frame (R53). -/
abbrev DecmOverlapSafe (s : State) : Prop :=
  s.engine.dst.toNat ≤ s.engine.src.toNat + s.engine.ivlen.toNat ∨
    RegionsApart s.engine.dst (payloadOf s) s.engine.src s.engine.len.toNat

theorem decmReadsFirst_of_overlapSafe (hr : DecmRegionsOK s) (hsafe : DecmOverlapSafe s) : DecmReadsFirst s := by
  obtain ⟨hsrc, hdst⟩ := hr
  intro j k hjk hj hk
  rcases hsafe with hbelow | hapart
  · rw [Ne, ← BitVec.toNat_inj, RegionOK.toNat_byteAddr hdst hj, RegionOK.toNat_byteAddr hsrc hk]
    omega
  · exact byteAddr_ne_of_apart hdst hsrc hapart hj hk

end

/-- Settles O38: in each of the three positions every frame byte is read before its address is written. -/
theorem decmDecryptsTheFrameThatStoodThere : Obligations.DecmDecryptsTheFrameThatStoodThere := by
  unfold Obligations.DecmDecryptsTheFrameThatStoodThere
  rintro s h hsrc hdst hsafe _ _ rfl rfl
  have hr : DecmRegionsOK s := ⟨hsrc, hdst⟩
  exact ⟨_, execDecm_plain h hr (decmReadsFirst_of_overlapSafe hr hsafe), memory_of_decmPlain hdst _ rfl⟩

/-! ### Streams against buffers, and round trips (R120, R122, R124) -/

section
variable {s : State}

/-- `DECS` of a whole frame and what follows it. -/
theorem execDecs_whole (h : FrameFits s) {body tag rest : List Byte} (hbody : body.length = bodyLen s)
    (htag : tag.length = s.profile.tagw) (hsrc : s.source = body ++ tag ++ rest) :
    execDecs s = .next { s with
      engine := closed (decide (tagFromBytes s.profile tag = tagOfCipher s.engine.key body)) false
        (tagOfCipher s.engine.key body) s.engine
      source := rest
      sink := s.sink ++ (plainOf s.engine.key body).drop s.engine.ivlen.toNat } := by
  have hlen := frame_length_split h
  have hframe : (body ++ tag).length = s.engine.len.toNat := by rw [List.length_append, hbody, htag, hlen]
  have hle : s.engine.len.toNat ≤ s.source.length := by
    rw [hsrc, List.length_append, hframe]
    exact Nat.le_add_right _ _
  have htake : body = s.source.take (bodyLen s) := by rw [hsrc, List.append_assoc, ← hbody, List.take_left]
  have hdrop : tag = (s.source.drop (bodyLen s)).take s.profile.tagw := by
    rw [hsrc, List.append_assoc, ← hbody, List.drop_left, ← htag, List.take_left]
  have hrest : s.source.drop s.engine.len.toNat = rest := by rw [hsrc, ← hframe, List.drop_left]
  rw [execDecs_done h body tag htake hdrop, hrest]
  simp [hle, hle.not_gt]

/-- A frame in memory is its body and its tag. -/
theorem memBytes_frame (h : FrameFits s) :
    memBytes s.mem s.engine.src s.engine.len.toNat = decmBody s ++ decmTag s := by
  rw [← frame_length_split h, memBytes_append]

end

/-- Settles O39: both commands' next states in terms of the same frame. -/
theorem streamAndBufferEncryptionAgree : Obligations.StreamAndBufferEncryptionAgree := by
  unfold Obligations.StreamAndBufferEncryptionAgree
  intro s h hivp hsrc hdst hiv hpl rest hsource
  have hr : EncmRegionsOK s := ⟨hivp, hsrc, hdst⟩
  have hlength : (payloadBytes s).length = payloadOf s := memBytes_length _ _ _
  have henough : ¬ s.source.length < payloadOf s := by
    rw [hsource, List.length_append, hlength]
    omega
  have htake : s.source.take (payloadOf s) = payloadBytes s := by rw [hsource, ← hlength, List.take_left]
  have hdrop : s.source.drop (payloadOf s) = rest := by rw [hsource, ← hlength, List.drop_left]
  have hmem := (memory_of_encmFrame h hdst _ rfl).1
  refine ⟨_, _, execEncm_frame h hr (encmReadsFirst_of_apart h hr hiv hpl), ?_⟩
  rw [exec_encs, execEncs_done h hivp, htake, hdrop, hmem, decide_eq_false henough]

/-- Settles O40: both commands' next states in terms of the same body and the same tag. -/
theorem streamAndBufferDecryptionAgree : Obligations.StreamAndBufferDecryptionAgree := by
  unfold Obligations.StreamAndBufferDecryptionAgree
  intro s h hsrc hdst hsafe rest hsource
  have hr : DecmRegionsOK s := ⟨hsrc, hdst⟩
  have hmem := (memory_of_decmPlain hdst _ rfl).1
  refine ⟨_, _, execDecm_plain h hr (decmReadsFirst_of_overlapSafe hr hsafe), ?_⟩
  rw [memBytes_frame h] at hsource
  rw [exec_decs, execDecs_whole h (memBytes_length _ _ _) (memBytes_length _ _ _) hsource, hmem]

/-- Settles O44: the accepted tag is the bytes of the computed one. -/
theorem wrongTagChangesOnlyValid : Obligations.WrongTagChangesOnlyValid := by
  unfold Obligations.WrongTagChangesOnlyValid
  intro s body rest h hbody
  refine ⟨tagBytes (tagOfCipher s.engine.key body), closed false false (tagOfCipher s.engine.key body) s.engine,
    (plainOf s.engine.key body).drop s.engine.ivlen.toNat, tagBytes_length _, ?_, rfl, rfl, fun tag htag => ?_⟩
  · rw [plainOf, List.length_drop, decryptBytes_length, hbody, Nat.add_sub_cancel_left]
  · have haccept : tagFromBytes s.profile tag = tagOfCipher s.engine.key body ↔
        tag = tagBytes (tagOfCipher s.engine.key body) :=
      ⟨fun heq => heq ▸ (tagBytes_tagFromBytes htag).symm, fun heq => heq ▸ tagFromBytes_tagBytes _⟩
    rw [exec_decs, execDecs_whole (s := { s with source := body ++ tag ++ rest }) h hbody htag rfl]
    simp only [haccept]

end Sys2Proof.Machine

/-! ### Frame-level round trips (R124) -/

namespace Sys2Proof.Machine

section
variable {p : Profile} (k : BitVec p.width) (iv payload : List Byte)

theorem cipherOf_length (plain : List Byte) : (cipherOf k plain).length = plain.length := encryptBytes_length _ _

/-- The tag of a frame is the one its ciphertext gives. -/
theorem tagFromBytes_frameTag (plain : List Byte) :
    tagFromBytes p (tagBytes (tagOf k plain)) = tagOfCipher k (cipherOf k plain) := by
  rw [tagFromBytes_tagBytes, tagOfCipher_cipherOf]

/-- The ciphertext of a frame decrypts to its payload, after the IV. -/
theorem drop_plainOf_cipherOf {n : Nat} (hiv : iv.length = n) :
    (plainOf k (cipherOf k (iv ++ payload))).drop n = payload := by
  rw [plainOf_cipherOf, ← hiv, List.drop_left]

end

section
variable {s : State} {iv payload : List Byte}

/-- `DECM` of a frame writes its payload and accepts its tag. -/
theorem execDecm_of_frame (h : FrameFits s) (hr : DecmRegionsOK s) (hsafe : DecmOverlapSafe s)
    (hiv : iv.length = s.engine.ivlen.toNat) (hpayload : payload.length = payloadOf s)
    (hframe : memBytes s.mem s.engine.src s.engine.len.toNat = frameOf s.engine.key iv payload) :
    ∃ m : Memory,
      execDecm s = .next { s with
        engine := closed true false (tagOf s.engine.key (iv ++ payload)) s.engine
        mem := m } ∧
      memBytes m s.engine.dst (payloadOf s) = payload := by
  have hlength : (decmBody s).length = (cipherOf s.engine.key (iv ++ payload)).length := by
    rw [memBytes_length, cipherOf_length, List.length_append, hiv, hpayload]
  rw [memBytes_frame h, frameOf] at hframe
  obtain ⟨hbody, htag⟩ := List.append_inj hframe hlength
  have hexec := execDecm_plain h hr (decmReadsFirst_of_overlapSafe hr hsafe)
  have hmem := (memory_of_decmPlain hr.2 _ rfl).1
  rw [htag, hbody, decide_eq_true (tagFromBytes_frameTag ..), tagOfCipher_cipherOf] at hexec
  rw [decmPlain, hbody, drop_plainOf_cipherOf _ _ _ hiv] at hexec hmem
  exact ⟨_, hexec, hmem⟩

/-- `DECS` of a frame appends its payload and accepts its tag. -/
theorem execDecs_of_frame (h : FrameFits s) {extra : List Byte} (hiv : iv.length = s.engine.ivlen.toNat)
    (hpayload : payload.length = payloadOf s) (hsource : s.source = frameOf s.engine.key iv payload ++ extra) :
    execDecs s = .next { s with
      engine := closed true false (tagOf s.engine.key (iv ++ payload)) s.engine
      source := extra
      sink := s.sink ++ payload } := by
  have hbody : (cipherOf s.engine.key (iv ++ payload)).length = bodyLen s := by
    rw [cipherOf_length, List.length_append, hiv, hpayload]
  rw [execDecs_whole h hbody (tagBytes_length _) hsource, decide_eq_true (tagFromBytes_frameTag ..),
    tagOfCipher_cipherOf, drop_plainOf_cipherOf _ _ _ hiv]

end

/-- Settles O41: `ENCM` leaves a frame in its region, and `DECM` is given that region. -/
theorem bufferRoundTrip : Obligations.BufferRoundTrip := by
  unfold Obligations.BufferRoundTrip
  intro s out h hivp hsrc hdst hiv hpl hout hsafe
  have hr : EncmRegionsOK s := ⟨hivp, hsrc, hdst⟩
  obtain ⟨hframe, -⟩ := memory_of_encmFrame h hdst _ rfl
  have hencm := execEncm_frame h hr (encmReadsFirst_of_apart h hr hiv hpl)
  obtain ⟨m', hdecm, hmem⟩ := execDecm_of_frame
    (s := { s with
      engine := { closed false false (tagOf s.engine.key (encmPlain s)) s.engine with src := s.engine.dst, dst := out }
      mem := Memory.writeBytes s.mem s.engine.dst 0 (frameOf s.engine.key (ivBytes s) (payloadBytes s)) })
    h ⟨hdst, hout⟩ hsafe (memBytes_length ..) (memBytes_length ..) hframe
  exact ⟨_, _, _, m', hencm, hdecm, rfl, rfl, rfl, hmem⟩

/-- Settles O42: `ENCS` appends a frame, and `DECS` is given that frame. -/
theorem streamRoundTrip : Obligations.StreamRoundTrip := by
  unfold Obligations.StreamRoundTrip
  intro s extra h hivp hsource
  have hpayload : (s.source.take (payloadOf s)).length = payloadOf s := List.length_take_of_le hsource
  have hencs := execEncs_done h hivp
  have hframe : (frameOf s.engine.key (ivBytes s) (s.source.take (payloadOf s))).length = s.engine.len.toNat := by
    rw [frameOf_length, memBytes_length, hpayload, frame_length_split h]
  rw [decide_eq_false hsource.not_gt] at hencs
  have hdecs := execDecs_of_frame
    (s := { s with
      engine := closed false false (tagOf s.engine.key (ivBytes s ++ s.source.take (payloadOf s))) s.engine
      source := frameOf s.engine.key (ivBytes s) (s.source.take (payloadOf s)) ++ extra })
    h (memBytes_length ..) hpayload rfl
  exact ⟨_, _, _, hencs, hframe, hdecs, rfl, rfl, rfl, rfl⟩

/-! ### The IV length is not authenticated (R120) -/

section
variable {s : State}

/-- `s` with another `IVLEN`. -/
abbrev withIvlen (s : State) (ivlen : Word32) : State := { s with engine := { s.engine with ivlen := ivlen } }

/-- A smaller `IVLEN` fits where a greater one does. -/
theorem frameFits_withIvlen (h : FrameFits s) {ivlen : Word32} (hle : ivlen.toNat ≤ s.engine.ivlen.toNat) :
    FrameFits (withIvlen s ivlen) :=
  (Nat.add_le_add_right hle _).trans h

/-- The IV field and the payload together are as long as before: what the IV loses, the payload gains. -/
theorem bodyLen_withIvlen (h : FrameFits s) {ivlen : Word32} (hle : ivlen.toNat ≤ s.engine.ivlen.toNat) :
    bodyLen (withIvlen s ivlen) = bodyLen s :=
  Nat.add_right_cancel ((frame_length_split (frameFits_withIvlen h hle)).trans (frame_length_split h).symm)

theorem decmBody_withIvlen (h : FrameFits s) {ivlen : Word32} (hle : ivlen.toNat ≤ s.engine.ivlen.toNat) :
    decmBody (withIvlen s ivlen) = decmBody s :=
  congrArg (memBytes s.mem s.engine.src) (bodyLen_withIvlen h hle)

theorem decmTag_withIvlen (h : FrameFits s) {ivlen : Word32} (hle : ivlen.toNat ≤ s.engine.ivlen.toNat) :
    decmTag (withIvlen s ivlen) = decmTag s :=
  congrArg (fun n => memBytes s.mem (byteAddr s.engine.src n) s.profile.tagw) (bodyLen_withIvlen h hle)

theorem payloadOf_le_withIvlen (h : FrameFits s) {ivlen : Word32} (hle : ivlen.toNat ≤ s.engine.ivlen.toNat) :
    payloadOf s ≤ payloadOf (withIvlen s ivlen) := by
  have hbody : ivlen.toNat + payloadOf (withIvlen s ivlen) = s.engine.ivlen.toNat + payloadOf s :=
    bodyLen_withIvlen h hle
  omega

/-- An output region that is safe for the smaller `IVLEN` is safe for the greater one. -/
theorem decmOverlapSafe_of_withIvlen (h : FrameFits s) {ivlen : Word32} (hle : ivlen.toNat ≤ s.engine.ivlen.toNat)
    (hsafe : DecmOverlapSafe (withIvlen s ivlen)) : DecmOverlapSafe s := by
  have hpayload := payloadOf_le_withIvlen h hle
  rcases hsafe with hbelow | hapart
  · exact .inl (hbelow.trans (Nat.add_le_add_left hle _))
  · refine .inr ?_
    rcases hapart with hzero | hzero | hbelow | habove
    · exact .inl (Nat.le_zero.mp (hpayload.trans hzero.le))
    · exact .inr (.inl hzero)
    · exact .inr (.inr (.inl ((Nat.add_le_add_left hpayload _).trans hbelow)))
    · exact .inr (.inr (.inr habove))

end

/-- Settles O43: both runs decrypt the same body and compare with the same tag; only the bytes left out differ. -/
theorem ivLengthIsNotAuthenticated : Obligations.IvLengthIsNotAuthenticated := by
  unfold Obligations.IvLengthIsNotAuthenticated
  rintro s _ ivlen h hle rfl
  have hfits := frameFits_withIvlen h hle
  have hpayload := payloadOf_le_withIvlen h hle
  refine ⟨?_, fun hsrc hdst hsafe => ?_⟩
  · have hdecs := execDecs_done (s := withIvlen s ivlen) hfits _ _ rfl rfl
    rw [show ivlen.toNat + payloadOf (withIvlen s ivlen) = bodyLen s from bodyLen_withIvlen h hle] at hdecs
    exact ⟨_, _, _, execDecs_done h _ _ rfl rfl, hdecs⟩
  · have hr : DecmRegionsOK s := ⟨hsrc, RegionOK.mono hdst hpayload⟩
    have hr' : DecmRegionsOK (withIvlen s ivlen) := ⟨hsrc, hdst⟩
    have hdecm := execDecm_plain h hr (decmReadsFirst_of_overlapSafe hr (decmOverlapSafe_of_withIvlen h hle hsafe))
    have hdecm' := execDecm_plain hfits hr' (decmReadsFirst_of_overlapSafe hr' hsafe)
    obtain ⟨hplain, hframe⟩ := memory_of_decmPlain hr.2 _ rfl
    obtain ⟨hplain', hframe'⟩ := memory_of_decmPlain hr'.2 _ rfl
    rw [decmTag_withIvlen h hle, decmPlain, decmBody_withIvlen h hle] at hdecm'
    rw [decmPlain, decmBody_withIvlen h hle] at hplain' hframe'
    exact ⟨_, _, _, _, hdecm, hdecm', hplain, hplain', fun a ha =>
      ⟨hframe a fun hin => ha (InRegion.mono hin hpayload), hframe' a ha⟩⟩

end Sys2Proof.Machine

/-! ### The accesses of a program line (R67, R68) -/

namespace Sys2Proof.Machine

section
variable {α β : Type} {f : α → Option β}

/-- Every element has an image exactly if the list has one. -/
theorem mapM_isSome (l : List α) : (l.mapM f).isSome = l.all fun a => (f a).isSome := by
  induction l with
  | nil => rfl
  | cons a l ih =>
    rw [List.mapM_cons, List.all_cons, ← ih]
    cases f a <;> cases l.mapM f <;> rfl

/-- An element of the image is the image of an element. -/
theorem exists_of_mem_mapM {l : List α} : ∀ {l' : List β}, l.mapM f = some l' → ∀ b ∈ l', ∃ a ∈ l, f a = some b := by
  induction l with
  | nil => rintro l' h b hb; cases h; cases hb
  | cons a l ih =>
    intro l' h b hb
    rw [List.mapM_cons] at h
    obtain ⟨b', hb', h⟩ := Option.bind_eq_some_iff.mp h
    obtain ⟨bs, hbs, h⟩ := Option.bind_eq_some_iff.mp h
    cases h
    rcases List.mem_cons.mp hb with rfl | hb
    · exact ⟨a, by simp, hb'⟩
    · obtain ⟨a', ha', hf⟩ := ih hbs b hb
      exact ⟨a', by simp [ha'], hf⟩

/-- The image of a list, element by element. -/
theorem mapM_eq_some_map {g : α → β} {l : List α} (h : ∀ a ∈ l, f a = some (g a)) : l.mapM f = some (l.map g) := by
  induction l with
  | nil => rfl
  | cons a l ih =>
    rw [List.mapM_cons, h a (by simp), ih fun b hb => h b (by simp [hb])]
    rfl

end

section
variable {p : Profile}

theorem isSome_ite_eq_decide {α : Type} (c : Prop) [Decidable c] (a : α) :
    (if c then some a else none).isSome = decide c := by
  split_ifs with h <;> simp [h]

/-- A line that is one transaction has one exactly if its operand is in range. -/
theorem transaction_isSome (p : Profile) (line : AsmLine) : (transaction line).isSome = lineFits p (.plain line) := by
  cases line with
  | wr r v => rw [transaction, isSome_ite_eq_decide, lineFits]
  | encb n => rw [transaction, asmByte, isSome_ite_eq_decide, immWf, lineFits, Bool.decide_eq_true]
  | decb n => rw [transaction, asmByte, isSome_ite_eq_decide, immWf, lineFits, Bool.decide_eq_true]
  | _ => rfl

/-- A pseudo-instruction's operands are in range exactly if those of the lines it expands to are. -/
theorem expand_fits (p : Profile) (line : PseudoLine) :
    ((expand p line).all fun l => lineFits p (.plain l)) = lineFits p (.pseudo line) := by
  cases line with
  | setkey v =>
    cases p with
    | w32 => simp [expand, lineFits, Profile.width]
    | w64 =>
      have hwidth : 2 ^ Profile.w64.width = 2 ^ 32 * 2 ^ 32 := rfl
      simp only [hwidth, expand, lineFits, List.all_cons, List.all_nil, Bool.and_true, ← Bool.decide_and,
        decide_eq_decide]
      omega
  | setbuf src dst ivp ivlen len => simp [expand, lineFits]
  | setstream ivp ivlen len => simp [expand, lineFits]
  | encstr text => simp [expand, lineFits, List.all_map, Function.comp_def]
  | gettag => cases p <;> rfl

theorem assemble_isSome (p : Profile) (line : SourceLine) : (assemble p line).isSome = lineFits p line := by
  cases line with
  | plain l => simp only [assemble, mapM_isSome, transaction_isSome p, List.all_cons, List.all_nil, Bool.and_true]
  | pseudo q => simp only [assemble, mapM_isSome, transaction_isSome p, expand_fits]

/-- Every access of a line is the transaction of a line it stands for. -/
theorem exists_transaction {line : SourceLine} {accesses : List Input} (h : assemble p line = some accesses) :
    ∀ inp ∈ accesses, ∃ l, transaction l = some inp := by
  intro inp hinp
  cases line with
  | plain l =>
    obtain ⟨l, -, hl⟩ := exists_of_mem_mapM h inp hinp
    exact ⟨l, hl⟩
  | pseudo q =>
    obtain ⟨l, -, hl⟩ := exists_of_mem_mapM h inp hinp
    exact ⟨l, hl⟩

theorem aligned_of_transaction {line : AsmLine} {inp : Input} (h : transaction line = some inp) :
    aligned inp = true := by
  obtain ⟨off, hoff, rfl | ⟨v, rfl⟩⟩ := transaction_aligned h <;> exact hoff

end

/-- Settles O11: each access is a line's transaction, so it is aligned. -/
theorem assembledLinesNeverStop : Obligations.AssembledLinesNeverStop := by
  unfold Obligations.AssembledLinesNeverStop
  intro p line
  refine ⟨assemble_isSome p line, fun accesses h inp hinp s => ?_⟩
  obtain ⟨l, hl⟩ := exists_transaction h inp hinp
  exact applyInput_aligned (aligned_of_transaction hl) s

/-! ### What each line expands to (R67, R68) -/

section
variable {p : Profile}

/-- A command's word is its opcode and, from bit 8, its data byte (R60–R62). -/
theorem encode_eq_or (i : Instr) : encode i = i.opcode.setWidth 32 ||| i.dataByte.setWidth 32 <<< 8 := by
  rw [← BitVec.setWidth_eq (encode i), encode, BitVec.setWidth_append_append_append_eq_shiftLeft_setWidth_or]
  simp [BitVec.or_comm]

theorem assemble_transaction {line : AsmLine} {inp : Input} (h : transaction line = some inp) :
    assemble p (.plain line) = some [inp] := by
  rw [assemble_plain, h]
  rfl

theorem assemble_wr (r : RegName) (v : Word32) :
    assemble p (.plain (.wr r v.toNat)) = some [.hostWrite (regOffset r) v] := assemble_transaction (transaction_wr r v)

theorem assemble_rd (r : RegName) : assemble p (.plain (.rd r)) = some [.hostRead (regOffset r)] :=
  assemble_transaction rfl

theorem assemble_setkey_w32 (v : Word32) :
    assemble .w32 (.pseudo (.setkey v.toNat)) = some [.hostWrite 0x08#8 v] := by
  simp [assemble, expand, regOffset]

/-- The halves of a 64-bit key (R29, R68). -/
theorem assemble_setkey_w64 (v : BitVec 64) :
    assemble .w64 (.pseudo (.setkey v.toNat)) =
      some [.hostWrite 0x08#8 (v.setWidth 32), .hostWrite 0x0C#8 ((v >>> 32).setWidth 32)] := by
  have hlow : v.toNat % 2 ^ 32 = (v.setWidth 32).toNat := (BitVec.toNat_setWidth 32 v).symm
  have hhigh : v.toNat / 2 ^ 32 = ((v >>> 32).setWidth 32).toNat := by
    rw [BitVec.toNat_setWidth, BitVec.toNat_ushiftRight, Nat.shiftRight_eq_div_pow]
    have hlt : v.toNat / 2 ^ 32 < 2 ^ 32 := Nat.div_lt_of_lt_mul v.isLt
    exact (Nat.mod_eq_of_lt hlt).symm
  rw [assemble, expand, hlow, hhigh, List.mapM_cons, List.mapM_cons, transaction_wr, transaction_wr]
  rfl

theorem assemble_setbuf (src dst ivp ivlen len : Word32) :
    assemble p (.pseudo (.setbuf src.toNat dst.toNat ivp.toNat ivlen.toNat len.toNat)) =
      some [.hostWrite 0x18#8 src, .hostWrite 0x1C#8 dst, .hostWrite 0x20#8 ivp, .hostWrite 0x14#8 ivlen,
        .hostWrite 0x10#8 len] := by
  simp [assemble, expand, regOffset]

theorem assemble_setstream (ivp ivlen len : Word32) :
    assemble p (.pseudo (.setstream ivp.toNat ivlen.toNat len.toNat)) =
      some [.hostWrite 0x20#8 ivp, .hostWrite 0x14#8 ivlen, .hostWrite 0x10#8 len] := by
  simp [assemble, expand, regOffset]

/-- A character of a text is the byte of its code point (R68). -/
theorem transaction_encb_char {c : Char} (hc : c.toNat < 256) :
    transaction (.encb c.toNat) =
      some (.hostWrite 0x00#8 (0x00000002#32 ||| BitVec.ofNat 32 c.toNat <<< 8)) := by
  have hbyte : (BitVec.ofNat 8 c.toNat).toNat = c.toNat := Nat.mod_eq_of_lt hc
  have hword : (BitVec.ofNat 8 c.toNat).setWidth 32 = BitVec.ofNat 32 c.toNat :=
    BitVec.setWidth_ofNat_of_le_of_lt (by decide) hc
  rw [← hbyte, transaction_encb, asmCommand, encode_eq_or, hbyte, Instr.dataByte, hword]
  rfl

theorem assemble_encstr {text : List Char} (h : ∀ c ∈ text, c.toNat < 256) :
    assemble p (.pseudo (.encstr text)) =
      some (text.map fun c => .hostWrite 0x00#8 (0x00000002#32 ||| BitVec.ofNat 32 c.toNat <<< 8)) := by
  rw [assemble, expand, List.mapM_map]
  exact mapM_eq_some_map fun c hc => transaction_encb_char (h c hc)

end

/-- Settles O54: one equation for each kind of line; the offsets and the words of the tables are closed facts. -/
theorem linesExpandToTheirTransactions : Obligations.LinesExpandToTheirTransactions := by
  unfold Obligations.LinesExpandToTheirTransactions
  intro p
  have hoffset : ∀ x ∈ [(RegName.cmd, 0x00#8), (.status, 0x04#8), (.keyl, 0x08#8), (.keyh, 0x0C#8), (.len, 0x10#8),
      (.ivlen, 0x14#8), (.src, 0x18#8), (.dst, 0x1C#8), (.ivp, 0x20#8), (.dout, 0x24#8), (.tagoutl, 0x28#8),
      (.tagouth, 0x2C#8), (.id, 0x30#8)], regOffset x.1 = x.2 := by decide
  have hword : ∀ x ∈ [(AsmLine.nop, 0x00000000#32), (.init, 0x00000001#32), (.final, 0x00000004#32),
      (.encs, 0x00000005#32), (.decs, 0x00000006#32), (.encm, 0x00000007#32), (.decm, 0x00000008#32),
      (.rst, 0x00000009#32)], transaction x.1 = some (.hostWrite 0x00#8 x.2) := by decide
  refine ⟨fun x hx => ?_, fun x hx => assemble_transaction (hword x hx), fun b => ⟨?_, ?_⟩, assemble_setkey_w32,
    assemble_setkey_w64, assemble_setbuf, assemble_setstream, fun _ => assemble_encstr, rfl, rfl⟩
  · rw [← hoffset x hx]
    exact ⟨assemble_wr x.1, assemble_rd x.1⟩
  · rw [assemble_transaction (transaction_encb b), asmCommand, encode_eq_or]
    rfl
  · rw [assemble_transaction (transaction_decb b), asmCommand, encode_eq_or]
    rfl

end Sys2Proof.Machine

/-! ### Operand writes in any order (R68) -/

namespace Sys2Proof.Machine

/-- What an operand write does to the registers; any other input is left out. -/
def operandStep {p : Profile} (e : Engine p) : Input → Engine p
  | .hostWrite off v => writeOperand off v e
  | .hostRead _ | .hardReset | .setSource _ | .placeByte _ _ => e

/-- Host writes of aligned offsets other than `CMD`, no offset twice. -/
def OperandWrites (writes : List (HostOffset × Word32)) : Prop :=
  (∀ w ∈ writes, w.1.wf = true ∧ w.1 ≠ 0x00#8) ∧ (writes.map Prod.fst).Nodup

/-- The host write of a value to an offset. -/
def writeOf (w : HostOffset × Word32) : Input := .hostWrite w.1 w.2

section
variable {writes : List (HostOffset × Word32)} {order : List Input}

/-- Operand writes one after another change the registers, and what else they change is the record. -/
theorem runInputs_operandWrites (s : State) (h : ∀ inp ∈ order, ∃ w ∈ writes, writeOf w = inp)
    (hw : OperandWrites writes) :
    ∃ trace : List Transaction,
      runInputs order s = some { s with engine := order.foldl operandStep s.engine, trace := trace } := by
  induction order generalizing s with
  | nil => exact ⟨s.trace, rfl⟩
  | cons inp order ih =>
    obtain ⟨w, hwm, rfl⟩ := h inp (by simp)
    obtain ⟨hwf, h0⟩ := hw.1 w hwm
    obtain ⟨trace, htrace⟩ := ih { record .write w.1 w.2 s with engine := writeOperand w.1 w.2 s.engine }
      fun inp hinp => h inp (by simp [hinp])
    refine ⟨trace, ?_⟩
    rw [runInputs, writeOf, applyInput, hostWrite_operand w.2 hwf h0]
    exact htrace

/-- Writes of different operand registers take effect in any order. -/
theorem foldl_operandStep_perm {p : Profile} (hw : OperandWrites writes) (horder : order.Perm (writes.map writeOf))
    (e : Engine p) : order.foldl operandStep e = (writes.map writeOf).foldl operandStep e := by
  refine (horder.symm.foldl_eq' (fun x hx y hy z => ?_) e).symm
  obtain ⟨w, hwm, rfl⟩ := List.mem_map.mp hx
  obtain ⟨w', hwm', rfl⟩ := List.mem_map.mp hy
  by_cases hoff : w'.1 = w.1
  · rw [List.inj_on_of_nodup_map hw.2 hwm' hwm hoff]
  · exact writeOperand_comm w'.2 w.2 z hoff

/-- Any order of operand writes leaves the registers that the given order leaves. -/
theorem runInputs_perm (s : State) (hw : OperandWrites writes) (horder : order.Perm (writes.map writeOf)) :
    ∃ trace : List Transaction,
      runInputs order s =
        some { s with engine := (writes.map writeOf).foldl operandStep s.engine, trace := trace } := by
  rw [← foldl_operandStep_perm hw horder]
  exact runInputs_operandWrites s (fun inp hinp => List.mem_map.mp (horder.mem_iff.mp hinp)) hw

end

/-- The writes that `setkey` expands to. -/
def setkeyWrites : (p : Profile) → BitVec p.width → List (HostOffset × Word32)
  | .w32, v => [(0x08#8, v)]
  | .w64, v => [(0x08#8, v.setWidth 32), (0x0C#8, (v >>> 32).setWidth 32)]

theorem assemble_setkey (p : Profile) (v : BitVec p.width) :
    assemble p (.pseudo (.setkey v.toNat)) = some ((setkeyWrites p v).map writeOf) := by
  cases p with
  | w32 => exact assemble_setkey_w32 v
  | w64 => exact assemble_setkey_w64 v

theorem setkeyWrites_operandWrites (p : Profile) (v : BitVec p.width) : OperandWrites (setkeyWrites p v) := by
  cases p <;> simp [OperandWrites, setkeyWrites, HostOffset.wf]

/-- The halves put together again, whatever the key was before (R29). -/
theorem foldl_setkeyWrites {p : Profile} (v : BitVec p.width) (e : Engine p) :
    ((setkeyWrites p v).map writeOf).foldl operandStep e = { e with key := v } := by
  cases p with
  | w32 => rfl
  | w64 =>
    have hkey : writeKeyHigh (p := .w64) (writeKeyLow e.key (v.setWidth 32)) ((v >>> 32).setWidth 32) = v := by
      have hv : v.toNat < 2 ^ 32 * 2 ^ 32 := v.isLt
      refine BitVec.eq_of_toNat_eq ?_
      rw [toNat_writeKeyHigh, if_pos rfl, toNat_writeKeyLow, BitVec.toNat_setWidth, BitVec.toNat_setWidth,
        BitVec.toNat_ushiftRight, Nat.shiftRight_eq_div_pow]
      omega
    exact congrArg (fun k => { e with key := k }) hkey

section
variable {p : Profile} (v : Word32) (e : Engine p)

theorem writeOperand_len : writeOperand 0x10#8 v e = { e with len := v } := rfl
theorem writeOperand_ivlen : writeOperand 0x14#8 v e = { e with ivlen := v } := rfl
theorem writeOperand_src : writeOperand 0x18#8 v e = { e with src := v } := rfl
theorem writeOperand_dst : writeOperand 0x1C#8 v e = { e with dst := v } := rfl
theorem writeOperand_ivp : writeOperand 0x20#8 v e = { e with ivp := v } := rfl

end

/-- The writes that `setbuf` expands to. -/
def setbufWrites (src dst ivp ivlen len : Word32) : List (HostOffset × Word32) :=
  [(0x18#8, src), (0x1C#8, dst), (0x20#8, ivp), (0x14#8, ivlen), (0x10#8, len)]

theorem foldl_setbufWrites {p : Profile} (src dst ivp ivlen len : Word32) (e : Engine p) :
    ((setbufWrites src dst ivp ivlen len).map writeOf).foldl operandStep e =
      { e with src := src, dst := dst, ivp := ivp, ivlen := ivlen, len := len } := by
  simp only [setbufWrites, writeOf, operandStep, List.map_cons, List.map_nil, List.foldl_cons, List.foldl_nil,
    writeOperand_len, writeOperand_ivlen, writeOperand_src, writeOperand_dst, writeOperand_ivp]

/-- The writes that `setstream` expands to. -/
def setstreamWrites (ivp ivlen len : Word32) : List (HostOffset × Word32) :=
  [(0x20#8, ivp), (0x14#8, ivlen), (0x10#8, len)]

theorem foldl_setstreamWrites {p : Profile} (ivp ivlen len : Word32) (e : Engine p) :
    ((setstreamWrites ivp ivlen len).map writeOf).foldl operandStep e =
      { e with ivp := ivp, ivlen := ivlen, len := len } := by
  simp only [setstreamWrites, writeOf, operandStep, List.map_cons, List.map_nil, List.foldl_cons, List.foldl_nil,
    writeOperand_len, writeOperand_ivlen, writeOperand_ivp]

/-- Settles O55: each expansion is a list of operand writes, whose effect is read off in the order of the table. -/
theorem expansionsSetTheOperandsInAnyOrder : Obligations.ExpansionsSetTheOperandsInAnyOrder := by
  unfold Obligations.ExpansionsSetTheOperandsInAnyOrder
  intro s accesses order horder
  refine ⟨fun v h => ?_, fun src dst ivp ivlen len h => ?_, fun ivp ivlen len h => ?_⟩
  · have hfits : v < 2 ^ s.profile.width := by
      have hsome := assemble_isSome s.profile (.pseudo (.setkey v))
      simpa [h, lineFits] using hsome
    have hv : (BitVec.ofNat s.profile.width v).toNat = v := Nat.mod_eq_of_lt hfits
    rw [← hv, assemble_setkey] at h
    cases h
    rw [← foldl_setkeyWrites]
    exact runInputs_perm s (setkeyWrites_operandWrites _ _) horder
  · rw [assemble_setbuf] at h
    cases h
    rw [← foldl_setbufWrites]
    exact runInputs_perm s (by simp [OperandWrites, setbufWrites, HostOffset.wf]) horder
  · rw [assemble_setstream] at h
    cases h
    rw [← foldl_setstreamWrites]
    exact runInputs_perm s (by simp [OperandWrites, setstreamWrites, HostOffset.wf]) horder

end Sys2Proof.Machine
